-- ==== Sys2Proof/Word.lean ====
section
/-! DEFINITION. The word types of the display block (00_scope.md R7, R8; 30_encoding.md R56). -/

namespace Sys2Proof

/-- A byte sent on the wire, and one slot of the digit buffer (R21, R61). -/
abbrev Byte := BitVec 8

/-- The value operand V and the brightness register: 32 bits, unsigned (R7, R23). -/
abbrev Word := BitVec 32

/-- The address operand A: 8 bits, unsigned (R8). -/
abbrev Addr := BitVec 8

/-- One host command word, format CMD48 (R56). -/
abbrev CmdWord := BitVec 48

end Sys2Proof
end

