-- ==== Sys2Proof/Config.lean ====
section
/-! DEFINITION. What one block's configuration fixes and the spec leaves OPEN (00_scope.md R9 to R12, 10_state.md R35,
93_implementation_defined.md I4 to I6). Each is a constant without a body: nothing can evaluate it, so a statement
proved here holds whatever the value is. -/

namespace Sys2Proof

/-- `CLK_PIN` (R10, D26): the identity of the clock pin. A number only names it; the naming scheme is out of scope (R5). -/
opaque Config.clkPin : Nat

/-- `DIO_PIN` (R10, D26): the identity of the data pin. -/
opaque Config.dioPin : Nat

/-- `CLK_INIT` (R11, D14, I4): the level of CLK before the block's first pin write after reset. -/
opaque Config.clkInit : Bool

/-- `DIO_INIT` (R11, D14, I4): the level of DIO before the block's first pin write after reset. -/
opaque Config.dioInit : Bool

/-- `HEX_SEG[10..15]` (R12, R102, D25, I5): the segment table's entries beyond the ten digits, by index.
The spec says entries 10 to 15 exist and gives no values; no command reads one. -/
opaque Config.hexSeg : Nat → Byte

/-- `T_STEP` (R9, D11, I6): the time between two consecutive pin-write events, in a unit the spec does not name. -/
opaque Config.tStep : Nat

end Sys2Proof
end

