-- ==== Sys2Proof/Syntax.lean ====
section
/-! DEFINITION. The instructions: one constructor for each row of spec/opcode_table.json. The first five are the host
commands of format CMD48 (30_encoding.md R57), `reserved` is the table's RESERVED row (R59), and the four `wire…`
constructors are the rows of format WIRE8, the bytes the block itself sends (R61): operations of the frame generator,
never host commands. -/

namespace Sys2Proof

inductive Instr where
  /-- `SHOW v, z` (R120; `show` is a word of Lean, so the constructor is not called so): the number `v`, padded with ZERO-FILL when `z`, else with BLANK. -/
  | showNum (v : Word) (z : Bool)
  /-- `SET l` (R130): the brightness level `l`. -/
  | set (l : Word)
  /-- `BIT v, a` (R110): the digit or sentinel `v` at address `a`. -/
  | bit (v : Word) (a : Addr)
  /-- `POINT e` (R132): the colon on (`e`) or off. -/
  | point (e : Bool)
  /-- `CLEAR` (R134). -/
  | clear
  /-- Row RESERVED: a host word that is no command (R59). -/
  | reserved (w : CmdWord)
  /-- Row wire:MODE, syntax `[44]`: the whole MODE frame (R62, R91). -/
  | wireMode
  /-- Row wire:ADDR, syntax `[C0|A ...`: the ADDR+DATA frame's opening, its start condition and first byte (R63, R92). -/
  | wireAddr (a : Addr)
  /-- Row wire:SEG, syntax `.. s]`: the ADDR+DATA frame's second byte and its stop condition (R64, R92). -/
  | wireSeg (s : Byte)
  /-- Row wire:DISPCTRL, syntax `[88+l]`: the whole DISPCTRL frame for the brightness `l` (R65, R93). -/
  | wireDispctrl (l : Word)
  deriving DecidableEq, Repr

/-- The rows of format WIRE8. -/
def Instr.isWire : Instr → Bool
  | .showNum _ _ | .set _ | .bit _ _ | .point _ | .clear | .reserved _ => false
  | .wireMode | .wireAddr _ | .wireSeg _ | .wireDispctrl _ => true

/-- The five commands a host may present (R57). -/
def Instr.isCommand : Instr → Bool
  | .showNum _ _ | .set _ | .bit _ _ | .point _ | .clear => true
  | .reserved _ | .wireMode | .wireAddr _ | .wireSeg _ | .wireDispctrl _ => false

end Sys2Proof
end

