-- ==== Sys2Proof/WellFormed.lean ====
section
/-! DEFINITION. Which terms of `Instr` are instructions of the table. A host command's operands fill their fields
exactly (30_encoding.md R58), so each is well formed. `reserved` is well formed on a reserved word only (R59), and a
wire row on the operands its match and mask in spec/opcode_table.json give. -/

namespace Sys2Proof

/-- R59, in its own words: OP is 0, 6 or 7, or R is not 0, or a field the OP does not use (R57) is not 0. -/
def reservedWord (w : CmdWord) : Bool :=
  let op := w.extractLsb' 0 3
  let f := w.extractLsb' 3 1
  let r := w.extractLsb' 4 4
  let a := w.extractLsb' 8 8
  let v := w.extractLsb' 16 32
  op == 0#3 || op == 6#3 || op == 7#3 || r != 0#4 ||
    (op == 1#3 && a != 0#8) ||
    (op == 2#3 && (a != 0#8 || f != 0#1)) ||
    (op == 3#3 && f != 0#1) ||
    (op == 4#3 && (v != 0#32 || a != 0#8)) ||
    (op == 5#3 && (v != 0#32 || a != 0#8 || f != 0#1))

/-- The segment bytes of R100 and R101, without the colon bit: the ten digits' and BLANK's 0x00. -/
def segmentPatterns : List Byte :=
  [0x00#8, 0x3F#8, 0x06#8, 0x5B#8, 0x4F#8, 0x66#8, 0x6D#8, 0x7D#8, 0x07#8, 0x7F#8, 0x6F#8]

def Instr.wellFormed : Instr → Bool
  | .showNum _ _ | .set _ | .bit _ _ | .point _ | .clear => true
  | .reserved w => reservedWord w
  | .wireMode => true
  -- mask 0xFC: the row's two operand bits
  | .wireAddr a => decide (a ≤ 3#8)
  -- row SEG matches any byte by its place in the frame; the bytes of R101 and R103 are the ones sent
  | .wireSeg s => segmentPatterns.contains (s &&& 0x7F#8)
  -- mask 0xF8: the row's three operand bits
  | .wireDispctrl l => decide (l ≤ 7#32)

end Sys2Proof
end

