-- ==== Sys2Proof/Decode.lean ====
section
/-! DEFINITION. Decoding and encoding (30_encoding.md). A host command is one 48-bit word on parallel lines (R55, R56),
so no byte order arises for it. A wire row is one byte. `decode` is total: it names a word that is no command
`reserved` (R59, R60). -/

namespace Sys2Proof

/-! ## Fields of CMD48 (R56) -/

/-- OP, bits 2:0. -/
def opField (w : CmdWord) : BitVec 3 := w.extractLsb' 0 3
/-- F, bit 3. -/
def flagField (w : CmdWord) : BitVec 1 := w.extractLsb' 3 1
/-- R, bits 7:4. -/
def reservedField (w : CmdWord) : BitVec 4 := w.extractLsb' 4 4
/-- A, bits 15:8. -/
def addrField (w : CmdWord) : Addr := w.extractLsb' 8 8
/-- V, bits 47:16. -/
def valueField (w : CmdWord) : Word := w.extractLsb' 16 32

/-- The F operand: 1 means true (R58). -/
def flagOperand (f : BitVec 1) : Bool := f == 1#1

/-- `decode` of R60. -/
def decode (w : CmdWord) : Instr :=
  let op := opField w
  let f := flagField w
  let a := addrField w
  let v := valueField w
  if reservedField w ≠ 0#4 then .reserved w
  else if op = 1#3 ∧ a = 0#8 then .showNum v (flagOperand f)
  else if op = 2#3 ∧ a = 0#8 ∧ f = 0#1 then .set v
  else if op = 3#3 ∧ f = 0#1 then .bit v a
  else if op = 4#3 ∧ v = 0#32 ∧ a = 0#8 then .point (flagOperand f)
  else if op = 5#3 ∧ v = 0#32 ∧ a = 0#8 ∧ f = 0#1 then .clear
  else .reserved w

/-- A wire byte read by the table's match and mask (rows wire:MODE, wire:ADDR, wire:DISPCTRL; every other byte is a
SEG byte, whose row has mask 0x00). On the wire a byte's kind is its place in the frames (R61). -/
def decodeWire (b : Byte) : Instr :=
  if b = 0x44#8 then .wireMode
  else if b &&& 0xFC#8 = 0xC0#8 then .wireAddr (b &&& 0x03#8)
  else if b &&& 0xF8#8 = 0x88#8 then .wireDispctrl ((b &&& 0x07#8).setWidth 32)
  else .wireSeg b

/-! ## Bytes of the wire rows (R62 to R65) -/

/-- MODE: the constant 0x44 (R62). -/
def modeByte : Byte := 0x44#8
/-- ADDR: `0xC0 | A` (R63). -/
def addrByte (a : Addr) : Byte := 0xC0#8 ||| a
/-- DISPCTRL: `trunc_8(0x88 + brightness)` (R65). -/
def dispctrlByte (brightness : Word) : Byte := (0x88#32 + brightness).setWidth 8

/-! ## Encoding -/

/-- The word of a row, in its format. -/
inductive Encoded where
  /-- format CMD48 -/
  | cmd48 (w : CmdWord)
  /-- format WIRE8 -/
  | wire8 (b : Byte)
  deriving DecidableEq, Repr

/-- The bits of the format (column `format` of the opcode table). -/
def Encoded.nbits : Encoded → Nat
  | .cmd48 _ => 48
  | .wire8 _ => 8

/-- The word as a number, bit 0 the least significant. -/
def Encoded.toNat : Encoded → Nat
  | .cmd48 w => w.toNat
  | .wire8 b => b.toNat

/-- A boolean operand as its 1-bit field (R58). -/
def flagBits (z : Bool) : BitVec 1 := if z then 1#1 else 0#1

/-- The CMD48 layout V, A, R, F, OP from the high end, with R = 0 (R56). -/
def cmdWord (v : Word) (a : Addr) (f : BitVec 1) (op : BitVec 3) : CmdWord := v ++ a ++ 0#4 ++ f ++ op

def encode : Instr → Encoded
  | .showNum v z => .cmd48 (cmdWord v 0#8 (flagBits z) 1#3)
  | .set l => .cmd48 (cmdWord l 0#8 0#1 2#3)
  | .bit v a => .cmd48 (cmdWord v a 0#1 3#3)
  | .point e => .cmd48 (cmdWord 0#32 0#8 (flagBits e) 4#3)
  | .clear => .cmd48 (cmdWord 0#32 0#8 0#1 5#3)
  | .reserved w => .cmd48 w
  | .wireMode => .wire8 modeByte
  | .wireAddr a => .wire8 (addrByte a)
  | .wireSeg s => .wire8 s
  | .wireDispctrl l => .wire8 (dispctrlByte l)

/-- The decoder of each format. -/
def decodeEncoded : Encoded → Instr
  | .cmd48 w => decode w
  | .wire8 b => decodeWire b

/-- A table word of at most 8 bits. The WIRE8 rows come first: their bytes with OP and R read as in CMD48 are reserved,
so no command is lost. A byte that is neither a MODE, ADDR or DISPCTRL byte nor the low byte of a command is a SEG
byte. (DESIGN CHOICE, log entry 13: the table gives both formats and a width tells them apart.) -/
def decodeTableByte (b : Byte) : Instr :=
  let wire := decodeWire b
  let cmd := decode (b.setWidth 48)
  if wire = .wireSeg b ∧ cmd.isCommand then cmd else wire

/-- The instruction the decoder reads from a row of spec/opcode_table.json. No row is longer than 48 bits. -/
def decodeTableWord (nbits w : Nat) : Option Instr :=
  if nbits ≤ 8 then some (decodeTableByte (BitVec.ofNat 8 w))
  else if nbits ≤ 48 then some (decode (BitVec.ofNat 48 w))
  else none

end Sys2Proof
end

