-- ==== Sys2Proof/Machine/Encoder.lean ====
section
/-! DEFINITION. The seven-segment encoder (42_segment_encoder.md). -/

namespace Sys2Proof.Machine

/-- The sentinel BLANK, 0x7F, compared against all 32 bits of V (10_state.md R22, D24). -/
def blank : Word := 0x7F#32

/-- The sentinel ZERO-FILL, 0x3F (R22). -/
def zeroFill : Word := 0x3F#32

/-- SegmentTable (R100); the entries beyond 9 are the OPEN parameter `HEX_SEG` (R102). An index above 15 is no entry of
the table: the same free value stands there, and no rule reads it (R101). -/
def segmentTable : Nat → Byte
  | 0 => 0x3F#8
  | 1 => 0x06#8
  | 2 => 0x5B#8
  | 3 => 0x4F#8
  | 4 => 0x66#8
  | 5 => 0x6D#8
  | 6 => 0x7D#8
  | 7 => 0x07#8
  | 8 => 0x7F#8
  | 9 => 0x6F#8
  | n => Config.hexSeg n

/-- `coding(v)` (R101): the sentinel tests come first. -/
def coding (v : Word) : Byte :=
  if v = blank then 0x00#8
  else if v = zeroFill then 0x3F#8
  else segmentTable v.toNat

/-- `SegByte(v, A)` (R103): the colon merge, at the full 8-bit address 1 only (D17). -/
def segByte (v : Word) (a : Addr) (colon : Bool) : Byte :=
  if a = 1#8 ∧ colon = true then coding v ||| 0x80#8 else coding v

end Sys2Proof.Machine
end

