-- ==== Sys2Proof/Machine/PinBus.lean ====
section
/-! DEFINITION. The two-wire protocol engine (40_pinbus.md): pin-write events and the three event sequences START, STOP
and WRITEBYTE. -/

namespace Sys2Proof.Machine

/-- The block's two outputs (10_state.md R30). -/
inductive Pin where
  | clk
  | dio
  deriving DecidableEq, Repr

/-- One pin-write event `PinWrite(p, l)` (R30). -/
structure PinEvent where
  pin   : Pin
  level : Bool
  deriving DecidableEq, Repr

/-- The levels of the two outputs (R30). -/
structure Pins where
  clk : Bool
  dio : Bool
  deriving DecidableEq, Repr

/-- The identity a pin-write event's pin carries (00_scope.md R10: the model names it only to label events). -/
def Pin.identity : Pin → Nat
  | .clk => Config.clkPin
  | .dio => Config.dioPin

/-- `PinWrite(CLK, l)`. -/
def clkWrite (l : Bool) : PinEvent := ⟨.clk, l⟩
/-- `PinWrite(DIO, l)`. -/
def dioWrite (l : Bool) : PinEvent := ⟨.dio, l⟩

/-- An event sets its pin's level, changed or not, and always succeeds (R30, R84). -/
def Pins.write (p : Pins) (e : PinEvent) : Pins :=
  match e.pin with
  | .clk => { p with clk := e.level }
  | .dio => { p with dio := e.level }

/-- The levels once a trace has been performed. -/
def Pins.writeAll (p : Pins) (t : List PinEvent) : Pins := t.foldl Pins.write p

/-- The electrical view (R31): the levels after each event of a trace. -/
def Pins.levels (p : Pins) : List PinEvent → List Pins
  | [] => []
  | e :: t => p.write e :: (p.write e).levels t

/-- `emit START` (R80). -/
def startTrace : List PinEvent := [clkWrite true, dioWrite true, dioWrite false, clkWrite false]

/-- `emit STOP` (R81). -/
def stopTrace : List PinEvent := [clkWrite false, dioWrite false, clkWrite true, dioWrite true]

/-- One bit slot of WRITEBYTE (R82); the receiver samples DIO on its last event, the rising edge of CLK. -/
def bitSlot (l : Bool) : List PinEvent := [clkWrite false, dioWrite l, clkWrite true]

/-- `emit WRITEBYTE(b)` (R82): bits 0 to 7, then the acknowledge slot, in which DIO is driven to 1 and nothing is read
(R83). -/
def writeByteTrace (b : Byte) : List PinEvent :=
  [0, 1, 2, 3, 4, 5, 6, 7].flatMap (fun i => bitSlot (b.getLsbD i)) ++ bitSlot true

end Sys2Proof.Machine
end

