-- ==== Sys2Proof/Machine/Framer.lean ====
section
/-! DEFINITION. The command-frame generator (41_framer.md). -/

namespace Sys2Proof.Machine

/-- `Frame(b0, ..., bk)` (R90). -/
def frameTrace (bs : List Byte) : List PinEvent := startTrace ++ bs.flatMap writeByteTrace ++ stopTrace

/-- The MODE frame (R91). -/
def modeFrame : List PinEvent := frameTrace [modeByte]

/-- The ADDR+DATA frame's first part: START and the address byte (R92; table syntax `[C0|A ...`). -/
def addrOpening (a : Addr) : List PinEvent := startTrace ++ writeByteTrace (addrByte a)

/-- The ADDR+DATA frame's second part: the segment byte and STOP (R92; table syntax `.. s]`). -/
def segClosing (s : Byte) : List PinEvent := writeByteTrace s ++ stopTrace

/-- The ADDR+DATA frame (R92). -/
def addrDataFrame (a : Addr) (s : Byte) : List PinEvent := frameTrace [addrByte a, s]

/-- The DISPCTRL frame (R93). -/
def dispctrlFrame (brightness : Word) : List PinEvent := frameTrace [dispctrlByte brightness]

/-- `DigitWrite(A, s)` (R94), the brightness it reads being an argument. -/
def digitWrite (a : Addr) (s : Byte) (brightness : Word) : List PinEvent :=
  modeFrame ++ addrDataFrame a s ++ dispctrlFrame brightness

/-- The trace of one accepted `BIT` (43_bit.md R112). -/
def bitTrace (v : Word) (a : Addr) (colon : Bool) (brightness : Word) : List PinEvent :=
  digitWrite a (segByte v a colon) brightness

/-- The trace of a `CLEAR` (45_set_point_clear.md R134). -/
def clearTrace (colon : Bool) (brightness : Word) : List PinEvent :=
  [0#8, 1#8, 2#8, 3#8].flatMap (fun a => bitTrace blank a colon brightness)

end Sys2Proof.Machine
end

