-- ==== Sys2Proof/Machine/Memory.lean ====
section
/-! DEFINITION. The digit buffer as memory (20_memory.md): the one addressable store, 4 slots of 8 bits at addresses
0 to 3 (R40), held as a canonical list of cells. -/

namespace Sys2Proof.Machine

/-- The cells that differ from `unlisted`, addresses strictly rising. -/
abbrev Memory := List Host.Cell

/-- What an unlisted slot reads as: BLANK, the slots' value after reset (70_reset_and_hazards.md R162). -/
def unlisted : Byte := 0x7F#8

/-- One past the last slot's address (R6, R40). -/
def slotCount : Nat := 4

/-- The slot at address `a`. -/
def Memory.read : Memory → Nat → Byte
  | [], _ => unlisted
  | c :: m, a => if c.1 = a then c.2 else Memory.read m a

/-- The cells without address `a`. -/
def Memory.erase : Memory → Nat → Memory
  | [], _ => []
  | c :: m, a => if c.1 = a then Memory.erase m a else c :: Memory.erase m a

/-- A cell put at its place in a list of rising addresses. -/
def Memory.insert : Memory → Host.Cell → Memory
  | [], d => [d]
  | c :: m, d => if c.1 < d.1 then c :: Memory.insert m d else d :: c :: m

/-- The slot at `a` holds `v` afterwards; the form stays canonical. -/
def Memory.write (m : Memory) (a : Nat) (v : Byte) : Memory :=
  if v = unlisted then Memory.erase m a else Memory.insert (Memory.erase m a) (a, v)

/-- Every cell lies at an address of at least `lo`, the addresses rise, each is a slot's (R40), and no cell holds what
an unlisted slot reads as. -/
def Memory.wfFrom (lo : Nat) : Memory → Bool
  | [] => true
  | c :: m => decide (lo ≤ c.1) && decide (c.1 < slotCount) && c.2 != unlisted && Memory.wfFrom (c.1 + 1) m

/-- The canonical form. -/
def Memory.wf (m : Memory) : Bool := Memory.wfFrom 0 m

/-- A slot value the spec calls legal: 0 to 9, ZERO-FILL or BLANK (R21, R36). -/
def legalSlot (b : Byte) : Bool := decide (b ≤ 9#8) || b == 0x3F#8 || b == 0x7F#8

/-- Every slot holds a legal value (R36, b). -/
def Memory.legal (m : Memory) : Bool := [0, 1, 2, 3].all (fun a => legalSlot (Memory.read m a))

end Sys2Proof.Machine
end

