-- ==== Sys2Proof/Machine/State.lean ====
section
/-! DEFINITION. The machine's state (10_state.md R20), its reasons to stop, and the state after reset
(70_reset_and_hazards.md R161). -/

namespace Sys2Proof.Machine

/-- What the host does with the block's inputs at one step (30_encoding.md R55, 70_reset_and_hazards.md R160). -/
inductive Input where
  /-- `rst` = 0 and `cmd_valid` = 0. -/
  | idle
  /-- `rst` = 0, `cmd_valid` = 1 and `cmd_word` = `w`, held until the block accepts it (R55, R167). -/
  | present (w : CmdWord)
  /-- `rst` = 1. -/
  | reset
  deriving DecidableEq, Repr

/-- The block raises no exception, trap or fault (60_exceptions.md R140): no meaning answers one, so the type has no
constructor. -/
inductive Fault where
  deriving DecidableEq, Repr

inductive Refusal where
  /-- Raised by an arm of `exec` that has no meaning yet; no arm is left so. Safe: the model stops. -/
  | notModelled (mnemonic : String)
  /-- Raised by the meaning of RESERVED: a word the host must never present, on which the block's behaviour is
  unspecified and a model gives no meaning (R59, R142, I1). Safe: the model stops. -/
  | reservedWord (w : CmdWord)
  deriving DecidableEq, Repr

/-- The block's state (R20), and what the host does next. `busy` is 1 exactly when `pending` is non-empty (R32), so it
is computed from it (Machine/Flags.lean). -/
structure State where
  /-- `digitBuffer[0..3]` (R21, R40). -/
  mem        : Memory
  /-- `brightness` (R23). -/
  brightness : Word
  /-- `colon`: 1 is `true` (R24). -/
  colon      : Bool
  /-- The levels of CLK and DIO (R30). -/
  pins       : Pins
  /-- The sequencer's events not yet performed, the next one first (R32). -/
  pending    : List PinEvent
  /-- The inputs of the coming steps, the present step's first; when the list is empty the inputs are idle. The host's,
  not the block's, state (R55, R160; log entry 1). -/
  inputs     : List Input
  deriving DecidableEq, Repr

/-- Right after reset (R161): brightness 7, colon 0, every slot BLANK and the trace of the reset's CLEAR still to be
performed (R32). The pins have their levels of before the first event (R11), and the host presents nothing. -/
def State.reset : State where
  mem        := []
  brightness := 7#32
  colon      := false
  pins       := ⟨Config.clkInit, Config.dioInit⟩
  pending    := clearTrace false 7#32
  inputs     := []

end Sys2Proof.Machine
end

