-- ==== Sys2Proof/Machine/Flags.lean ====
section
/-! DEFINITION. The block has no flag, condition code or error bit (10_state.md R20, R25). What the host reads of it is
here: `busy`, `cmd_ready` and the status port. -/

namespace Sys2Proof.Machine

/-- `busy` = 1 exactly when `pending` is non-empty (R32). -/
def State.busy (s : State) : Bool := !s.pending.isEmpty

/-- The inputs of the present step. -/
def State.input (s : State) : Input := s.inputs.headD .idle

/-- The `rst` line (70_reset_and_hazards.md R160). -/
def State.rst (s : State) : Bool := s.input == .reset

/-- `cmd_ready` = not `busy` (30_encoding.md R55), and 0 while `rst` is asserted (R160). -/
def State.cmdReady (s : State) : Bool := !s.busy && !s.rst

/-- What the status port shows (R34). -/
structure Status where
  slot0      : Byte
  slot1      : Byte
  slot2      : Byte
  slot3      : Byte
  brightness : Word
  colon      : Bool
  deriving DecidableEq, Repr

/-- The status port (R34): no value unless the block is ready (I2: a claim may read it only when `cmd_ready` = 1). -/
def State.status (s : State) : Option Status :=
  if s.cmdReady then
    some { slot0 := Memory.read s.mem 0, slot1 := Memory.read s.mem 1, slot2 := Memory.read s.mem 2,
           slot3 := Memory.read s.mem 3, brightness := s.brightness, colon := s.colon }
  else none

end Sys2Proof.Machine
end

