-- ==== Sys2Proof/Machine/Operands.lean ====
section
/-! DEFINITION. Operands: the forms in which a command's operand reaches a digit write. Every operand is its field
unchanged (30_encoding.md R58); what remains is BIT's validity gate, the widening of a slot to the value operand, and
SHOW's decomposition of a number. -/

namespace Sys2Proof.Machine

/-- `Accept(V, A)` (43_bit.md R111): the address bound is for digits only. -/
def accept (v : Word) (a : Addr) : Bool :=
  v == blank || v == zeroFill || (decide (v ≤ 9#32) && decide (a ≤ 3#8))

/-- A slot's raw value as a value operand, zero-extended (00_scope.md R13). -/
def slotOperand (b : Byte) : Word := b.setWidth 32

/-- SHOW's padding sentinel (44_show.md R121). -/
def padding (z : Bool) : Word := if z then zeroFill else blank

/-- The values SHOW sends to positions 3, 2, 1 and 0. -/
structure ShowDigits where
  p3 : Word
  p2 : Word
  p1 : Word
  p0 : Word
  deriving DecidableEq, Repr

/-- SHOW's magnitude bands (R120, R121): floor division and its remainder on unsigned V (R125). -/
def showDigits (v : Word) (z : Bool) : ShowDigits :=
  let pad := padding z
  let d0 := v % 10#32
  let d1 := (v / 10#32) % 10#32
  let d2 := (v / 100#32) % 10#32
  let d3 := (v / 1000#32) % 10#32
  if v < 10#32 then ⟨v, pad, pad, pad⟩
  else if v < 100#32 then ⟨d0, d1, pad, pad⟩
  else if v < 1000#32 then ⟨d0, d1, d2, pad⟩
  else ⟨d0, d1, d2, d3⟩

end Sys2Proof.Machine
end

