-- ==== Sys2Proof/Machine/Ops.lean ====
section
/-! DEFINITION. The shared operations: slot access, emission of events, the BIT transition every command reduces to,
the reset sequence and the sequencer's step. There is no exception to take and none to return from
(60_exceptions.md R140, R145). -/

namespace Sys2Proof.Machine

/-- What a step or a meaning answers. -/
abbrev Result := Host.Outcome State Fault Refusal

/-- `MemRead(a, 1)` (20_memory.md R41); no rule reads an address above 3. -/
def State.memRead (s : State) (a : Fin 4) : Byte := Memory.read s.mem a.val

/-- `MemWrite(a, 1, v)` (R42): `v[7:0]` into slot `a`, and nothing at an address above 3 (D9). -/
def State.memWrite (s : State) (a : Addr) (v : Word) : State :=
  if a ≤ 3#8 then { s with mem := Memory.write s.mem a.toNat (v.setWidth 8) } else s

/-- Events appended to the trace (00_scope.md R14). A command is accepted only when nothing is pending, so appending
sets `pending` to its trace (30_encoding.md R55). -/
def State.emit (s : State) (t : List PinEvent) : State := { s with pending := s.pending ++ t }

/-- `BIT(V, A)` (43_bit.md R110): the one transition that emits digit writes. A rejected one changes nothing (R113). -/
def bitTransition (v : Word) (a : Addr) (s : State) : State :=
  if accept v a then (s.emit (bitTrace v a s.colon s.brightness)).memWrite a v else s

/-- The address operand of slot `a`. -/
def slotAddr (a : Fin 4) : Addr := BitVec.ofNat 8 a.val

/-- `BIT(MemRead(a, 1), a)`: slot `a` sent again (45_set_point_clear.md R130, R132). -/
def resend (a : Fin 4) (s : State) : State := bitTransition (slotOperand (s.memRead a)) (slotAddr a) s

/-- One position of SHOW: its BIT, then the redundant store of the same raw digit (44_show.md R120, R124). -/
def showPosition (p : Word) (a : Addr) (s : State) : State := (bitTransition p a s).memWrite a p

/-- `CLEAR` (R134): BLANK to addresses 0, 1, 2, 3 in that order. -/
def clearTransition (s : State) : State :=
  bitTransition blank 3#8 (bitTransition blank 2#8 (bitTransition blank 1#8 (bitTransition blank 0#8 s)))

/-- The reset sequence (70_reset_and_hazards.md R161), of an idle or a running block. Pending events are discarded
(R163), and until the first event of the CLEAR the pins have the OPEN levels `CLK_INIT` and `DIO_INIT` (10_state.md R30,
R162, log entry 3). The slots' contents, unspecified here, are those of before, and the CLEAR overwrites them. -/
def resetSequence (s : State) : State :=
  clearTransition
    { s with brightness := 7#32, colon := false, pins := ⟨Config.clkInit, Config.dioInit⟩, pending := [] }

/-- The present step's input is used up. -/
def State.popInput (s : State) : State := { s with inputs := s.inputs.tail }

/-- The sequencer's step (R165): the first pending event is performed and removed. -/
def State.performNext (s : State) : State :=
  match s.pending with
  | [] => s
  | e :: rest => { s with pins := s.pins.write e, pending := rest }

/-- Every pending event performed, in order (the effect of as many sequencer steps). -/
def State.drain (s : State) : State := { s with pins := s.pins.writeAll s.pending, pending := [] }

/-- The time a command of `n` events takes in steps: one for each event, plus the step of acceptance (R170). -/
def commandSteps (n : Nat) : Nat := n + 1

/-- The time `n` events take: successive events are `T_STEP` apart (R9, R165). -/
def eventsDuration (n : Nat) : Nat := n * Config.tStep

end Sys2Proof.Machine
end

