-- ==== Sys2Proof/Machine/Bit.lean ====
section
/-! DEFINITION. The meaning of BIT (43_bit.md). -/

namespace Sys2Proof.Machine

/-- `BIT v, a` (R110): accepted or silently rejected by the gate (R111 to R113). -/
def execBit (v : Word) (a : Addr) (s : State) : Result := .next (bitTransition v a s)

end Sys2Proof.Machine
end

