-- ==== Sys2Proof/Machine/Reserved.lean ====
section
/-! DEFINITION. The meaning of the table's RESERVED row. -/

namespace Sys2Proof.Machine

/-- A reserved host word (30_encoding.md R59): "the block's behaviour on one is unspecified, and a model refuses it". -/
def execReserved (w : CmdWord) (_ : State) : Result := .refused (.reservedWord w)

end Sys2Proof.Machine
end

