-- ==== Sys2Proof/Machine/SetPointClear.lean ====
section
/-! DEFINITION. The meanings of SET, POINT and CLEAR (45_set_point_clear.md). -/

namespace Sys2Proof.Machine

/-- `SET l` (R130): stored without a clamp (R131), then slots 0, 1, 2, 3 are sent again in that order. -/
def execSet (l : Word) (s : State) : Result :=
  .next (resend 3 (resend 2 (resend 1 (resend 0 { s with brightness := l }))))

/-- `POINT e` (R132): the operand is stored, not toggled (R133, C2), and slot 1 alone is sent again. -/
def execPoint (e : Bool) (s : State) : Result := .next (resend 1 { s with colon := e })

/-- `CLEAR` (R134). -/
def execClear (s : State) : Result := .next (clearTransition s)

end Sys2Proof.Machine
end

