-- ==== Sys2Proof/Machine/Show.lean ====
section
/-! DEFINITION. The meaning of SHOW (44_show.md). -/

namespace Sys2Proof.Machine

/-- `SHOW v, z` (R120): positions 3, 2, 1, 0, in that order (R122). -/
def execShow (v : Word) (z : Bool) (s : State) : Result :=
  let d := showDigits v z
  .next (showPosition d.p0 0#8 (showPosition d.p1 1#8 (showPosition d.p2 2#8 (showPosition d.p3 3#8 s))))

end Sys2Proof.Machine
end

