-- ==== Sys2Proof/Machine/Wire.lean ====
section
/-! DEFINITION. The meanings of the wire rows: operations of the frame generator (41_framer.md), which write no
register. A digit write is MODE, ADDR, SEG, DISPCTRL in that order (R94). -/

namespace Sys2Proof.Machine

/-- wire:MODE (R91). -/
def execWireMode (s : State) : Result := .next (s.emit modeFrame)

/-- wire:ADDR (R92, first byte). -/
def execWireAddr (a : Addr) (s : State) : Result := .next (s.emit (addrOpening a))

/-- wire:SEG (R92, second byte). -/
def execWireSeg (b : Byte) (s : State) : Result := .next (s.emit (segClosing b))

/-- wire:DISPCTRL (R93), the level being the brightness the digit write reads. -/
def execWireDispctrl (l : Word) (s : State) : Result := .next (s.emit (dispctrlFrame l))

/-- The events a wire row stands for; a host row stands for none of its own. -/
def wireTrace : Instr → List PinEvent
  | .wireMode => modeFrame
  | .wireAddr a => addrOpening a
  | .wireSeg b => segClosing b
  | .wireDispctrl l => dispctrlFrame l
  | .showNum _ _ | .set _ | .bit _ _ | .point _ | .clear | .reserved _ => []

/-- The state in which the sequencer is about to perform a wire row's events: what was pending has been performed, and
no reset or command stands before them. -/
def State.loadWire (s : State) (i : Instr) : State :=
  { s.drain with pending := wireTrace i, inputs := .idle :: s.inputs }

/-- The state in which the host presents `w` to the idle block: what was pending has been performed. -/
def State.loadCommand (s : State) (w : CmdWord) : State :=
  { s.drain with inputs := .present w :: s.inputs }

/-- The row's word placed where the next step takes it: a wire byte in the sequencer, a command word on `cmd_word`. -/
def State.loadWord (s : State) (nbits w : Nat) : State :=
  match decodeTableWord nbits w with
  | some i => if i.isWire then s.loadWire i else s.loadCommand (BitVec.ofNat 48 w)
  | none => s.loadCommand (BitVec.ofNat 48 w)

end Sys2Proof.Machine
end

