-- ==== Sys2Proof/Machine/Dispatch.lean ====
section
/-! DEFINITION. One arm per row of spec/opcode_table.json. -/

namespace Sys2Proof.Machine

def exec (i : Instr) (s : State) : Host.Outcome State Fault Refusal :=
  match i with
  | .showNum v z => Sys2Proof.Machine.execShow v z s
  | .set l => Sys2Proof.Machine.execSet l s
  | .bit v a => Sys2Proof.Machine.execBit v a s
  | .point e => Sys2Proof.Machine.execPoint e s
  | .clear => Sys2Proof.Machine.execClear s
  | .reserved w => Sys2Proof.Machine.execReserved w s
  | .wireMode => Sys2Proof.Machine.execWireMode s
  | .wireAddr a => Sys2Proof.Machine.execWireAddr a s
  | .wireSeg b => Sys2Proof.Machine.execWireSeg b s
  | .wireDispctrl l => Sys2Proof.Machine.execWireDispctrl l s

end Sys2Proof.Machine
end

