-- ==== Sys2Proof/Machine/Step.lean ====
section
/-! DEFINITION. One step of the block (30_encoding.md R55, 70_reset_and_hazards.md R160 to R166), and the placing of an
instruction for the next step. -/

namespace Sys2Proof.Machine

/-- One step. `rst` comes first (R160, R163). While events are pending one is performed, and a command the host
presents is held, not accepted (R55, R165). An idle block accepts the presented word (R55), or, with none presented,
does nothing. -/
def step (s : State) : Host.Outcome State Fault Refusal :=
  match s.input with
  | .reset => .next (resetSequence s.popInput)
  | .present w => if s.busy then .next s.performNext else exec (decode w) s.popInput
  | .idle => .next s.performNext.popInput

/-- `s` with the instruction of a table row placed where the next step takes it (log entry 12). -/
def State.withFetchWord (s : State) (nbits w : Nat) : State := s.loadWord nbits w

end Sys2Proof.Machine
end

