-- ==== Sys2Proof/Machine/Receiver.lean ====
section
/-! DEFINITION. The wire as a receiver sees it (10_state.md R31, 30_encoding.md R66): it sees levels only, samples DIO on
each rising edge of CLK, and tells a frame by its start condition (DIO falls while CLK is high) and its stop condition
(DIO rises while CLK is high). No behaviour of the controller chip is modelled (00_scope.md R5). -/

namespace Sys2Proof.Machine

/-- What a receiver has gathered: the bits sampled since the start condition of the frame it is in, if it is in one,
and the frames it has completed, each oldest first. -/
structure Receiver where
  bits   : Option (List Bool)
  frames : List (List Byte)
  deriving DecidableEq, Repr

/-- Outside a frame, with nothing received. -/
def Receiver.start : Receiver := ⟨none, []⟩

/-- A byte from its bits, bit 0 first (20_memory.md R46). -/
def byteOfBits (b0 b1 b2 b3 b4 b5 b6 b7 : Bool) : Byte :=
  BitVec.ofBool b7 ++ BitVec.ofBool b6 ++ BitVec.ofBool b5 ++ BitVec.ofBool b4 ++
    BitVec.ofBool b3 ++ BitVec.ofBool b2 ++ BitVec.ofBool b1 ++ BitVec.ofBool b0

/-- The bytes of a frame's sampled bits: nine samples a byte, the ninth in the acknowledge slot (40_pinbus.md R82).
The rising edge inside STOP gives one more sample, which belongs to no byte (DEDUCED, log entry 11). The samples of a byte
that a stop condition cuts short, in a truncated frame, are dropped; what a receiver makes of them is left open
(91_not_in_source.md N8, 93_implementation_defined.md I7; DESIGN CHOICE, log entry 17). -/
def bytesOfSamples : List Bool → List Byte
  | b0 :: b1 :: b2 :: b3 :: b4 :: b5 :: b6 :: b7 :: _ack :: rest =>
    byteOfBits b0 b1 b2 b3 b4 b5 b6 b7 :: bytesOfSamples rest
  | _ => []

/-- The receiver sees the levels go from `old` to `new`. Outside a frame it ignores edges and stop conditions (log
entry 11). A start condition inside a frame, which only a reset in mid-frame makes (70_reset_and_hazards.md R163), drops
the samples gathered, records no frame and opens a new one: what a receiver makes of a truncated frame is left open
(91_not_in_source.md N8, 93_implementation_defined.md I7; DESIGN CHOICE, log entry 17). -/
def Receiver.see (r : Receiver) (old new : Pins) : Receiver :=
  if !old.clk && new.clk then { r with bits := r.bits.map (· ++ [new.dio]) }
  else if old.clk && new.clk && old.dio && !new.dio then { r with bits := some [] }
  else if old.clk && new.clk && !old.dio && new.dio then
    match r.bits with
    | some bs => { bits := none, frames := r.frames ++ [bytesOfSamples bs] }
    | none => r
  else r

/-- The receiver sees a sequence of levels, the levels before them being `old`. -/
def Receiver.watch (r : Receiver) (old : Pins) : List Pins → Receiver
  | [] => r
  | new :: rest => (r.see old new).watch new rest

/-- The electrical view with the events that change no level left out: they are invisible on the wire (R31). -/
def electricalView (old : Pins) : List Pins → List Pins
  | [] => []
  | new :: rest => if new = old then electricalView old rest else new :: electricalView new rest

/-- The DIO level at each rising edge of CLK (R31). -/
def samples (old : Pins) : List Pins → List Bool
  | [] => []
  | new :: rest => if !old.clk && new.clk then new.dio :: samples new rest else samples new rest

end Sys2Proof.Machine
end

