-- ==== Sys2Proof/Safety.lean ====
section
/-! DEFINITION. What a safe run is, in the terms the statements use: the host's obligations (30_encoding.md R59,
70_reset_and_hazards.md R164, R169) and the invariant of the block (10_state.md R36). -/

namespace Sys2Proof.Machine

/-- The host keeps R59: no word it is going to present is reserved. -/
def State.hostLegal (s : State) : Prop := ∀ w, Input.present w ∈ s.inputs → reservedWord w = false

/-- Two blocks never drive one pin pair (R147, R169): a platform's blocks, each given by its (CLK, DIO) pair. Two blocks
are on the same pair when their CLK pins are one pin and their DIO pins are one pin; the spec does not say whether two
blocks with CLK and DIO exchanged, or with one pin in common, are, and they are counted as exclusive here (DESIGN CHOICE,
log entry 18). -/
def pinPairsExclusive (blocks : List (Nat × Nat)) : Prop := blocks.Nodup

/-- One digit write, by its address operand, its segment byte and the brightness it reads. -/
structure DigitWrite where
  addr       : Addr
  seg        : Byte
  brightness : Word
  deriving DecidableEq, Repr

/-- The events of a list of digit writes (41_framer.md R94). -/
def digitWritesTrace (ws : List DigitWrite) : List PinEvent :=
  ws.flatMap (fun d => digitWrite d.addr d.seg d.brightness)

/-- What is pending is the rest of a sequence of digit writes: the block sends nothing else (R61, R95). -/
def State.onlyDigitWrites (s : State) : Prop := ∃ ws, s.pending <:+ digitWritesTrace ws

/-- The invariant: the buffer is canonical and its slots legal (R36), the pending events are the rest of digit writes
(R95), and both pins are high once they have been performed (40_pinbus.md R81). -/
structure State.Inv (s : State) : Prop where
  memWf   : Memory.wf s.mem = true
  legal   : Memory.legal s.mem = true
  digits  : s.onlyDigitWrites
  drained : s.pins.writeAll s.pending = ⟨true, true⟩

/-- The slots, left to right (R21). -/
def State.slots (s : State) : List Byte := [0, 1, 2, 3].map (Memory.read s.mem)

/-- What SHOW leaves at position `k` of 0 to 3, said on natural numbers (44_show.md R121, R123): the decimal digit of
weight `10^(3-k)`, or the padding sentinel at a leading position that the number does not reach. -/
def shownAt (v : Nat) (z : Bool) (k : Nat) : Nat :=
  if k = 3 ∨ 10 ^ (3 - k) ≤ v then v / 10 ^ (3 - k) % 10 else if z then 0x3F else 0x7F

/-- The digit writes a command causes, in order (R112, R120, R122, R130, R132, R134), from the registers it finds. -/
def commandWrites (i : Instr) (s : State) : List DigitWrite :=
  match i with
  | .showNum v z => [3, 2, 1, 0].map fun k =>
      ⟨BitVec.ofNat 8 k, segByte (BitVec.ofNat 32 (shownAt v.toNat z k)) (BitVec.ofNat 8 k) s.colon, s.brightness⟩
  | .set l => [0, 1, 2, 3].map fun k =>
      ⟨BitVec.ofNat 8 k, segByte (slotOperand (Memory.read s.mem k)) (BitVec.ofNat 8 k) s.colon, l⟩
  | .bit v a => if accept v a then [⟨a, segByte v a s.colon, s.brightness⟩] else []
  | .point e => [⟨1#8, segByte (slotOperand (Memory.read s.mem 1)) 1#8 e, s.brightness⟩]
  | .clear =>
      [⟨0#8, 0x00#8, s.brightness⟩, ⟨1#8, if s.colon then 0x80#8 else 0x00#8, s.brightness⟩,
       ⟨2#8, 0x00#8, s.brightness⟩, ⟨3#8, 0x00#8, s.brightness⟩]
  | .reserved _ | .wireMode | .wireAddr _ | .wireSeg _ | .wireDispctrl _ => []

/-- The three frames of a digit write, as bytes (R61, R94). -/
def DigitWrite.frames (d : DigitWrite) : List (List Byte) :=
  [[0x44#8], [0xC0#8 ||| d.addr, d.seg], [BitVec.ofNat 8 (0x88 + d.brightness.toNat)]]

/-- DIO moves only while CLK is low, so the levels hold no start and no stop condition (40_pinbus.md R82). -/
def dioMovesOnlyWhileClkLow (old : Pins) : List Pins → Bool
  | [] => true
  | new :: rest => (old.dio == new.dio || (!old.clk && !new.clk)) && dioMovesOnlyWhileClkLow new rest

/-- The levels after each of the next `n` steps, as far as the machine goes on. -/
def pinsAlong : Nat → State → List Pins
  | 0, _ => []
  | n + 1, s =>
    match step s with
    | .next t => t.pins :: pinsAlong n t
    | .fault _ | .refused _ => []

end Sys2Proof.Machine
end

