-- ==== Sys2Proof/Certificates/Slice0/Obligations.lean ====
section
/-! DEFINITION. The statements for the provers. Each docstring names the rule of spec/ it formalises. -/

open Sys2Proof Sys2Proof.Machine

/-! ## Encoding (30_encoding.md) -/

/-- Words the spec writes out decode to the instructions they stand for (R68's examples; 95_test_vectors.md, section 5). -/
def Obligations.WrittenOutWordsDecode : Prop :=
  decode 0x000000050203#48 = .bit 5#32 2#8 ∧ decode 0x0000002A0009#48 = .showNum 42#32 true ∧
  decode 0x000000030002#48 = .set 3#32 ∧ decode 0x00000000000C#48 = .point true ∧
  decode 0x000000000005#48 = .clear ∧ decode 0x00000000000D#48 = .reserved 0xD#48 ∧
  decode 0x000000000016#48 = .reserved 0x16#48 ∧ decode 0xFFFFFFFFFF03#48 = .bit 0xFFFFFFFF#32 255#8 ∧
  decodeWire 0x44#8 = .wireMode ∧ decodeWire 0xC2#8 = .wireAddr 2#8 ∧
  decodeWire 0x5B#8 = .wireSeg 0x5B#8 ∧ decodeWire 0x8B#8 = .wireDispctrl 3#32

/-- Decoding the encoding of a well-formed instruction gives it back, for every row and every operand. That the wire
rows are instructions, and how a table word tells a wire row from a command, are the model's choices (log entries 10 and
13). -/
def Obligations.DecodeOfEncodeIsTheInstruction : Prop :=
  ∀ i : Instr, i.wellFormed = true →
    decodeEncoded (encode i) = i ∧ decodeTableWord (encode i).nbits (encode i).toNat = some i

/-- Every 48-bit word is the encoding of the one instruction it decodes to, which is well formed and no wire row. -/
def Obligations.EveryCommandWordEncodesBack : Prop :=
  ∀ w : CmdWord, encode (decode w) = .cmd48 w ∧ (decode w).wellFormed = true ∧ (decode w).isWire = false

/-- R59: a word is reserved exactly when OP is 0, 6 or 7, or R is not 0, or a field the OP does not use is not 0, and a
block that would accept one refuses it. -/
def Obligations.ReservedWordsAreRefused : Prop :=
  ∀ w : CmdWord,
    (decode w = .reserved w ↔ reservedWord w = true) ∧
    (reservedWord w = true ↔
      (w.extractLsb' 0 3 = 0#3 ∨ w.extractLsb' 0 3 = 6#3 ∨ w.extractLsb' 0 3 = 7#3 ∨ w.extractLsb' 4 4 ≠ 0#4 ∨
        (w.extractLsb' 0 3 ≠ 3#3 ∧ w.extractLsb' 8 8 ≠ 0#8) ∨
        (w.extractLsb' 0 3 ≠ 1#3 ∧ w.extractLsb' 0 3 ≠ 4#3 ∧ w.extractLsb' 3 1 ≠ 0#1) ∨
        ((w.extractLsb' 0 3 = 4#3 ∨ w.extractLsb' 0 3 = 5#3) ∧ w.extractLsb' 16 32 ≠ 0#32))) ∧
    (reservedWord w = true → ∀ (s : State) (rest : List Input), s.pending = [] → s.inputs = .present w :: rest →
      step s = .refused (.reservedWord w))

/-- R60: decoding is the five (match, mask) pairs, with the operands of the fields, and RESERVED otherwise. -/
def Obligations.DecodeIsMatchAndMask : Prop :=
  ∀ w : CmdWord,
    (w &&& 0x00000000FFF7#48 = 1#48 ↔ decode w = .showNum (w.extractLsb' 16 32) (w.getLsbD 3)) ∧
    (w &&& 0x00000000FFFF#48 = 2#48 ↔ decode w = .set (w.extractLsb' 16 32)) ∧
    (w &&& 0x0000000000FF#48 = 3#48 ↔ decode w = .bit (w.extractLsb' 16 32) (w.extractLsb' 8 8)) ∧
    (w &&& 0xFFFFFFFFFFF7#48 = 4#48 ↔ decode w = .point (w.getLsbD 3)) ∧
    (w &&& 0xFFFFFFFFFFFF#48 = 5#48 ↔ decode w = .clear) ∧
    (w &&& 0x00000000FFF7#48 ≠ 1#48 → w &&& 0x00000000FFFF#48 ≠ 2#48 → w &&& 0x0000000000FF#48 ≠ 3#48 →
      w &&& 0xFFFFFFFFFFF7#48 ≠ 4#48 → w &&& 0xFFFFFFFFFFFF#48 ≠ 5#48 → decode w = .reserved w)

/-- R68: `word = (V << 16) | (A << 8) | (F << 3) | OP`, for each command, and the rule's examples. -/
def Obligations.EncodingFollowsTheFormula : Prop :=
  (∀ (v : Word) (a : Addr) (f : BitVec 1) (op : BitVec 3),
    cmdWord v a f op =
      (v.setWidth 48 <<< 16) ||| (a.setWidth 48 <<< 8) ||| (f.setWidth 48 <<< 3) ||| op.setWidth 48) ∧
  (∀ (v : Word) (z : Bool), encode (.showNum v z) = .cmd48 (cmdWord v 0#8 (BitVec.ofBool z) 1#3)) ∧
  (∀ l : Word, encode (.set l) = .cmd48 (cmdWord l 0#8 0#1 2#3)) ∧
  (∀ (v : Word) (a : Addr), encode (.bit v a) = .cmd48 (cmdWord v a 0#1 3#3)) ∧
  (∀ e : Bool, encode (.point e) = .cmd48 (cmdWord 0#32 0#8 (BitVec.ofBool e) 4#3)) ∧
  encode .clear = .cmd48 (cmdWord 0#32 0#8 0#1 5#3) ∧
  encode (.bit 5#32 2#8) = .cmd48 0x000000050203#48 ∧ encode (.showNum 42#32 true) = .cmd48 0x0000002A0009#48 ∧
  encode (.set 3#32) = .cmd48 0x000000030002#48 ∧ encode (.point true) = .cmd48 0x00000000000C#48 ∧
  encode .clear = .cmd48 0x000000000005#48

/-- R62, R63, R65: the MODE byte, the ADDR byte's bits, and the DISPCTRL byte inside and outside brightness 0 to 7. -/
def Obligations.WireBytesOfModeAddrDispctrl : Prop :=
  modeByte = 0b01000100#8 ∧
  (∀ a : Addr, (addrByte a).extractLsb' 6 2 = 3#2 ∧ (addrByte a).extractLsb' 0 6 = a.extractLsb' 0 6) ∧
  (∀ a : Addr, a.toNat ≤ 3 → (addrByte a).toNat = 0xC0 + a.toNat) ∧
  (∀ l : Word, (dispctrlByte l).toNat = (0x88 + l.toNat) % 256) ∧
  (∀ l : Word, l.toNat ≤ 7 →
    (dispctrlByte l).extractLsb' 3 5 = 0b10001#5 ∧ (dispctrlByte l).extractLsb' 0 3 = l.extractLsb' 0 3) ∧
  dispctrlByte 8#32 = 0x90#8 ∧ dispctrlByte 0x78#32 = 0x00#8 ∧ dispctrlByte 0xFFFFFFFF#32 = 0x87#8

/-! ## The two-wire protocol engine and the frames (40_pinbus.md, 41_framer.md) -/

/-- R80, R81: the START and STOP sequences, the levels they leave, and which events change a level after a STOP and
after a WRITEBYTE. -/
def Obligations.StartAndStopSequences : Prop :=
  startTrace = [⟨.clk, true⟩, ⟨.dio, true⟩, ⟨.dio, false⟩, ⟨.clk, false⟩] ∧
  stopTrace = [⟨.clk, false⟩, ⟨.dio, false⟩, ⟨.clk, true⟩, ⟨.dio, true⟩] ∧
  (∀ p : Pins, p.writeAll startTrace = ⟨false, false⟩ ∧ p.writeAll stopTrace = ⟨true, true⟩) ∧
  Pins.levels ⟨true, true⟩ startTrace = [⟨true, true⟩, ⟨true, true⟩, ⟨true, false⟩, ⟨false, false⟩] ∧
  Pins.levels ⟨true, true⟩ stopTrace = [⟨false, true⟩, ⟨false, false⟩, ⟨true, false⟩, ⟨true, true⟩]

/-- R82: WRITEBYTE's 27 events for every byte, the levels they leave, that DIO moves only while CLK is low, so that
there is no start and no stop condition among them, and that the first event after a START changes no level. -/
def Obligations.WriteByteSequence : Prop :=
  ∀ (b : Byte) (p : Pins),
    writeByteTrace b =
      [⟨.clk, false⟩, ⟨.dio, b.getLsbD 0⟩, ⟨.clk, true⟩, ⟨.clk, false⟩, ⟨.dio, b.getLsbD 1⟩, ⟨.clk, true⟩,
       ⟨.clk, false⟩, ⟨.dio, b.getLsbD 2⟩, ⟨.clk, true⟩, ⟨.clk, false⟩, ⟨.dio, b.getLsbD 3⟩, ⟨.clk, true⟩,
       ⟨.clk, false⟩, ⟨.dio, b.getLsbD 4⟩, ⟨.clk, true⟩, ⟨.clk, false⟩, ⟨.dio, b.getLsbD 5⟩, ⟨.clk, true⟩,
       ⟨.clk, false⟩, ⟨.dio, b.getLsbD 6⟩, ⟨.clk, true⟩, ⟨.clk, false⟩, ⟨.dio, b.getLsbD 7⟩, ⟨.clk, true⟩,
       ⟨.clk, false⟩, ⟨.dio, true⟩, ⟨.clk, true⟩] ∧
    (writeByteTrace b).length = 27 ∧
    p.writeAll (writeByteTrace b) = ⟨true, true⟩ ∧
    dioMovesOnlyWhileClkLow p (p.levels (writeByteTrace b)) = true ∧
    ((p.writeAll startTrace).levels (writeByteTrace b)).head? = some (p.writeAll startTrace)

/-- R46, R82: a receiver that samples DIO on each rising edge of CLK reads the byte's bits, bit 0 first, then 1 in the
acknowledge slot. -/
def Obligations.ReceiverSamplesTheByte : Prop :=
  ∀ (b : Byte) (p : Pins),
    samples p (p.levels (writeByteTrace b)) =
      [b.getLsbD 0, b.getLsbD 1, b.getLsbD 2, b.getLsbD 3, b.getLsbD 4, b.getLsbD 5, b.getLsbD 6, b.getLsbD 7, true]

/-- R31: the levels after each event of a trace are what each event sets, and the events that change no level are
invisible: a receiver gathers the same, and samples the same, when they are left out. -/
def Obligations.NoChangeEventsAreInvisible : Prop :=
  ∀ (t : List PinEvent) (p : Pins) (r : Receiver),
    (∀ n, n < t.length → (p.levels t)[n]? = some (p.writeAll (t.take (n + 1)))) ∧
    r.watch p (electricalView p (p.levels t)) = r.watch p (p.levels t) ∧
    samples p (electricalView p (p.levels t)) = samples p (p.levels t)

/-- Whatever the levels before it, a frame (R90) is received as exactly its bytes by a receiver that is in no frame. The
receiver's framing and sampling are R66's; that it takes nine samples a byte and drops the sample at STOP's rising edge
is the model's inference (DEDUCED, log entry 11). -/
def Obligations.FrameIsReceivedAsItsBytes : Prop :=
  ∀ (bs : List Byte) (p : Pins) (done : List (List Byte)),
    Receiver.watch ⟨none, done⟩ p (p.levels (frameTrace bs)) = ⟨none, done ++ [bs]⟩

/-- R94: a digit write is the three frames MODE, ADDR+DATA, DISPCTRL, each in its own START and STOP, 132 events. -/
def Obligations.DigitWriteIsThreeFrames : Prop :=
  ∀ (a : Addr) (b : Byte) (l : Word),
    digitWrite a b l =
      startTrace ++ writeByteTrace 0x44#8 ++ stopTrace ++
      (startTrace ++ writeByteTrace (0xC0#8 ||| a) ++ writeByteTrace b ++ stopTrace) ++
      (startTrace ++ writeByteTrace (BitVec.ofNat 8 (0x88 + l.toNat)) ++ stopTrace) ∧
    (digitWrite a b l).length = 132

/-! ## The encoder and the gate (42_segment_encoder.md, 43_bit.md) -/

/-- R100, R101: the segment table of the ten digits, and the coding of every digit and of both sentinels. -/
def Obligations.CodingOfDigitsAndSentinels : Prop :=
  [0, 1, 2, 3, 4, 5, 6, 7, 8, 9].map segmentTable =
    [0x3F#8, 0x06#8, 0x5B#8, 0x4F#8, 0x66#8, 0x6D#8, 0x7D#8, 0x07#8, 0x7F#8, 0x6F#8] ∧
  [0#32, 1#32, 2#32, 3#32, 4#32, 5#32, 6#32, 7#32, 8#32, 9#32].map coding =
    [0x3F#8, 0x06#8, 0x5B#8, 0x4F#8, 0x66#8, 0x6D#8, 0x7D#8, 0x07#8, 0x7F#8, 0x6F#8] ∧
  coding 0x7F#32 = 0x00#8 ∧ coding 0x3F#32 = 0x3F#8

/-- R64, R103: of every accepted BIT, the segment byte's bit 7 is the colon at address 1 and 0 elsewhere, and its other
bits are the coding. -/
def Obligations.ColonBitOnlyAtAddressOne : Prop :=
  ∀ (v : Word) (a : Addr) (colon : Bool), accept v a = true →
    (segByte v a colon).getLsbD 7 = (a == 1#8 && colon) ∧
    (segByte v a colon).extractLsb' 0 7 = (coding v).extractLsb' 0 7

/-- R111: the gate, on the operands' numbers; a call it does not accept is a no-op. -/
def Obligations.ValidityGate : Prop :=
  ∀ (v : Word) (a : Addr),
    (accept v a = true ↔ v.toNat = 0x7F ∨ v.toNat = 0x3F ∨ (v.toNat ≤ 9 ∧ a.toNat ≤ 3)) ∧
    (¬ (v.toNat = 0x7F ∨ v.toNat = 0x3F ∨ (v.toNat ≤ 9 ∧ a.toNat ≤ 3)) → ∀ s : State, exec (.bit v a) s = .next s)

/-! ## The digit buffer (20_memory.md) -/

/-- MemWrite stores `v[7:0]` in slot `a` when `a` is at most 3 (R42), leaving every other slot. That it changes no state
at an address of 4 or more is the spec's own choice D9, followed by the model (DESIGN CHOICE, log entry 9). -/
def Obligations.MemWriteOfOneSlot : Prop :=
  ∀ (s : State) (a : Addr) (v : Word),
    (a.toNat ≤ 3 → ∀ b : Fin 4,
      (s.memWrite a v).memRead b = if b.val = a.toNat then v.extractLsb' 0 8 else s.memRead b) ∧
    (a.toNat ≤ 3 → { s.memWrite a v with mem := s.mem } = s) ∧
    (4 ≤ a.toNat → s.memWrite a v = s)

/-! ## The commands (43_bit.md, 44_show.md, 45_set_point_clear.md) -/

/-- An accepted BIT appends its one digit write, stores the raw value in slot `a` when `a` is at most 3 (R112), and
changes nothing else. That at an address of 4 or more (a sentinel only) it sends its frames and stores nothing is the
spec's own choice D9, followed by the model (DESIGN CHOICE, log entry 9). -/
def Obligations.AcceptedBitWritesOneDigit : Prop :=
  ∀ (v : Word) (a : Addr) (s : State), accept v a = true →
    ∃ t, exec (.bit v a) s = .next t ∧
      t.pending = s.pending ++ digitWrite a (segByte v a s.colon) s.brightness ∧
      (∀ b : Fin 4, t.memRead b = if b.val = a.toNat then v.extractLsb' 0 8 else s.memRead b) ∧
      (4 ≤ a.toNat → t.mem = s.mem) ∧
      t.brightness = s.brightness ∧ t.colon = s.colon ∧ t.pins = s.pins ∧ t.inputs = s.inputs

/-- R113: a rejected BIT changes nothing and sends nothing, and an idle block that accepts it is idle after the step. -/
def Obligations.RejectedBitIsSilent : Prop :=
  ∀ (v : Word) (a : Addr) (s : State), accept v a = false →
    exec (.bit v a) s = .next s ∧
    ∀ (w : CmdWord) (rest : List Input), s.pending = [] → s.inputs = .present w :: rest → decode w = .bit v a →
      step s = .next { s with inputs := rest } ∧
      (rest.head? ≠ some .reset → State.cmdReady { s with inputs := rest } = true)

/-- SHOW leaves in each slot the digit or the padding of the bands (R120, R121), sends one digit write for each of the
four positions, and changes nothing else. The order 3, 2, 1, 0 of the digit writes (D8, R122) and the floor division that
gives the digits (D7) are the spec's own choices, followed by the model (DESIGN CHOICE, log entry 9). -/
def Obligations.ShowWritesTheFourPositions : Prop :=
  ∀ (v : Word) (z : Bool) (s : State),
    ∃ t, exec (.showNum v z) s = .next t ∧
      t.slots = [0, 1, 2, 3].map (fun k => BitVec.ofNat 8 (shownAt v.toNat z k)) ∧
      t.pending = s.pending ++ digitWritesTrace (commandWrites (.showNum v z) s) ∧
      t.brightness = s.brightness ∧ t.colon = s.colon ∧ t.pins = s.pins ∧ t.inputs = s.inputs

/-- R123: a number of 1000 or more is shown as the four digits of the number modulo 10000, with no padding, whatever
the fill flag. -/
def Obligations.ShowTruncatesToFourDigits : Prop :=
  ∀ (v : Word) (z : Bool) (s t : State), 1000 ≤ v.toNat → exec (.showNum v z) s = .next t →
    (∀ k : Fin 4, (t.memRead k).toNat ≤ 9) ∧
    1000 * (t.memRead 0).toNat + 100 * (t.memRead 1).toNat + 10 * (t.memRead 2).toNat + (t.memRead 3).toNat =
      v.toNat % 10000

/-- R121: with the fill flag, every number below 10000 is displayed as its four decimal digits, leading zeros included,
although the padded slots hold ZERO-FILL. -/
def Obligations.ZeroFilledShowRendersFourDigits : Prop :=
  ∀ (v : Word) (s t : State), v.toNat < 10000 → exec (.showNum v true) s = .next t →
    t.slots.map (fun b => coding (slotOperand b)) =
      [v.toNat / 1000 % 10, v.toNat / 100 % 10, v.toNat / 10 % 10, v.toNat % 10].map segmentTable

/-- R124: the redundant store of a SHOW position has no effect of its own. -/
def Obligations.ShowRedundantStoreIsHarmless : Prop :=
  ∀ (v : Word) (a : Addr) (s : State), accept v a = true → showPosition v a s = bitTransition v a s

/-- R130: SET stores its level unclamped, sends every slot again in the order 0, 1, 2, 3 with the new brightness, and
changes nothing else; its premise is the buffer's invariant (R36). -/
def Obligations.SetStoresLevelAndResendsAll : Prop :=
  ∀ (l : Word) (s : State), Memory.wf s.mem = true → Memory.legal s.mem = true →
    exec (.set l) s =
      .next { s with brightness := l, pending := s.pending ++ digitWritesTrace (commandWrites (.set l) s) }

/-- R132: POINT stores its operand, sends slot 1 again, with the colon bit when it is on, and changes nothing else; its
premise is the buffer's invariant (R36). -/
def Obligations.PointStoresFlagAndResendsSlotOne : Prop :=
  ∀ (e : Bool) (s : State), Memory.wf s.mem = true → Memory.legal s.mem = true →
    exec (.point e) s =
      .next { s with
        colon := e,
        pending := s.pending ++
          digitWrite 1#8 (coding (slotOperand (Memory.read s.mem 1)) ||| if e then 0x80#8 else 0x00#8) s.brightness }

/-- R134: CLEAR leaves BLANK in every slot, sends 0x00 to addresses 0, 1, 2, 3 in that order (0x80 to address 1 when
the colon is on), and changes nothing else. -/
def Obligations.ClearBlanksEverySlot : Prop :=
  ∀ s : State,
    ∃ t, exec .clear s = .next t ∧
      (∀ k : Fin 4, t.memRead k = 0x7F#8) ∧
      t.pending = s.pending ++ digitWritesTrace (commandWrites .clear s) ∧
      t.brightness = s.brightness ∧ t.colon = s.colon ∧ t.pins = s.pins ∧ t.inputs = s.inputs

/-- R45: a command given twice leaves the registers that it left the first time, and sends the same trace again. -/
def Obligations.CommandsAreIdempotentOnRegisters : Prop :=
  ∀ (i : Instr) (s t : State), i.isCommand = true → Memory.wf s.mem = true → Memory.legal s.mem = true →
    exec i s = .next t →
    ∃ trace u, t.pending = s.pending ++ trace ∧
      exec i t = .next u ∧ u = { t with pending := t.pending ++ trace }

/-- Each wire row appends its events and changes nothing else. The frames are those of R91, R92 and R93; that a wire row
is an operation, and that ADDR is the opening part of the ADDR+DATA frame and SEG its closing part, is the model's choice
(DESIGN CHOICE, log entry 10). -/
def Obligations.WireRowsAppendTheirEvents : Prop :=
  ∀ (a : Addr) (b : Byte) (l : Word) (s : State),
    exec .wireMode s = .next { s with pending := s.pending ++ (startTrace ++ writeByteTrace 0x44#8 ++ stopTrace) } ∧
    exec (.wireAddr a) s = .next { s with pending := s.pending ++ (startTrace ++ writeByteTrace (0xC0#8 ||| a)) } ∧
    exec (.wireSeg b) s = .next { s with pending := s.pending ++ (writeByteTrace b ++ stopTrace) } ∧
    exec (.wireDispctrl l) s =
      .next { s with
        pending := s.pending ++ (startTrace ++ writeByteTrace (BitVec.ofNat 8 (0x88 + l.toNat)) ++ stopTrace) }

/-- The rows MODE, ADDR, SEG and DISPCTRL, run in that order with the brightness of the state, are one digit write (R94).
That the rows are operations of their own, run one after another, is the model's choice (DESIGN CHOICE, log entry 10). -/
def Obligations.WireRowsComposeTheDigitWrite : Prop :=
  ∀ (a : Addr) (b : Byte) (s : State),
    ∃ s₁ s₂ s₃, exec .wireMode s = .next s₁ ∧ exec (.wireAddr a) s₁ = .next s₂ ∧ exec (.wireSeg b) s₂ = .next s₃ ∧
      exec (.wireDispctrl s₃.brightness) s₃ = .next { s with pending := s.pending ++ digitWrite a b s.brightness }

/-- R59, R142: RESERVED stops on every word and in every state, by a refusal of its own name. -/
def Obligations.ReservedRowStops : Prop :=
  ∀ (w : CmdWord) (s : State), exec (.reserved w) s = .refused (.reservedWord w)

/-! ## The step (30_encoding.md R55, 70_reset_and_hazards.md) -/

/-- R55: an idle block to which the host presents a word runs what the word decodes to, the input being used up. The
host's lines as a list of inputs are the model's choice (DESIGN CHOICE, log entry 1). -/
def Obligations.StepRunsThePresentedCommand : Prop :=
  ∀ (s : State) (w : CmdWord) (rest : List Input), s.pending = [] → s.inputs = .present w :: rest →
    step s = exec (decode w) { s with inputs := rest }

/-- R55, R165, R167: while events are pending and `rst` is low, a step performs the first one and removes it, changes no
register, and holds a presented command. The host's lines as a list of inputs are the model's choice (DESIGN CHOICE, log
entry 1). -/
def Obligations.BusyStepPerformsTheFirstEvent : Prop :=
  ∀ (s : State) (e : PinEvent) (rest : List PinEvent), s.pending = e :: rest → s.rst = false →
    ∃ t, step s = .next t ∧ t.pending = rest ∧
      t.pins.clk = (if e.pin = .clk then e.level else s.pins.clk) ∧
      t.pins.dio = (if e.pin = .dio then e.level else s.pins.dio) ∧
      t.mem = s.mem ∧ t.brightness = s.brightness ∧ t.colon = s.colon ∧
      (∀ w later, s.inputs = .present w :: later → t.inputs = s.inputs) ∧
      (∀ later, s.inputs = .idle :: later → t.inputs = later)

/-- An idle block to which nothing is presented stays as it is. No rule says so: it is the model's inference (DEDUCED,
log entry 15) from the block's acting only on a command (R55), an event (R165) or a reset (R160). The host's lines as a
list of inputs, whose end reads as nothing presented, are the model's choice (DESIGN CHOICE, log entry 1). -/
def Obligations.IdleStepChangesNothing : Prop :=
  ∀ (s : State) (rest : List Input), s.pending = [] → s.inputs = .idle :: rest ∨ (s.inputs = [] ∧ rest = []) →
    step s = .next { s with inputs := rest }

/-- R50: what the host drives after a command is accepted, short of a reset, has no effect on the block while the command
is being performed. The host's lines as a list of inputs are the model's choice (DESIGN CHOICE, log entry 1). -/
def Obligations.HostLinesDoNotDisturbACommand : Prop :=
  ∀ (s : State) (ins : List Input), s.pending ≠ [] → s.rst = false → ins.head? ≠ some .reset →
    ∃ t u, step s = .next t ∧ step { s with inputs := ins } = .next u ∧
      { t with inputs := [] } = { u with inputs := [] }

/-- `cmd_ready` is high exactly when nothing is pending (R32, R55) and `rst` is low (R160). The status port shows the
registers while `cmd_ready` is high and has no value while events are pending (R34); that it has none while `rst` is
asserted either is the model's choice (DESIGN CHOICE, log entry 14). -/
def Obligations.ReadyAndStatusPort : Prop :=
  ∀ s : State,
    (s.cmdReady = true ↔ s.pending = [] ∧ s.inputs.head? ≠ some .reset) ∧
    (s.cmdReady = true →
      s.status = some ⟨s.memRead 0, s.memRead 1, s.memRead 2, s.memRead 3, s.brightness, s.colon⟩) ∧
    (s.cmdReady = false → s.status = none)

/-- The instruction of a 48-bit table word, placed by `withFetchWord`, is what the next step runs (the model's own
interface, log entry 12). -/
def Obligations.FetchWordRunsNext : Prop :=
  ∀ (s : State) (w : CmdWord),
    step (s.withFetchWord 48 w.toNat) =
      exec (decode w) { s with pins := s.pins.writeAll s.pending, pending := [] }

/-- A wire row's word, placed by `withFetchWord`, puts the row's events where the sequencer performs them, and the next
step performs the first; they are the events its meaning appends (the model's own interface, log entry 12; the rows as
operations, log entry 10). -/
def Obligations.FetchedWireByteIsPerformed : Prop :=
  ∀ (s : State) (b : Byte) (i : Instr), decodeTableWord 8 b.toNat = some i → i.isWire = true →
    (∀ u : State, exec i u = .next { u with pending := u.pending ++ wireTrace i }) ∧
    ∃ e rest, wireTrace i = e :: rest ∧
      step (s.withFetchWord 8 b.toNat) =
        .next { s with pins := (s.pins.writeAll s.pending).write e, pending := rest }

/-! ## Reset (70_reset_and_hazards.md) -/

/-- R161, R32: the state right after reset, with the reset's CLEAR still to be performed. The reset input is the spec's
own choice D13 (log entry 9), and the pin levels are constants without a value (log entry 4). -/
def Obligations.ResetStateIsClearPending : Prop :=
  State.reset.brightness = 7#32 ∧ State.reset.colon = false ∧ State.reset.slots = [0x7F#8, 0x7F#8, 0x7F#8, 0x7F#8] ∧
  State.reset.pins = ⟨Config.clkInit, Config.dioInit⟩ ∧
  State.reset.pending =
    digitWrite 0#8 0x00#8 7#32 ++ digitWrite 1#8 0x00#8 7#32 ++ digitWrite 2#8 0x00#8 7#32 ++
      digitWrite 3#8 0x00#8 7#32 ∧
  State.reset.busy = true

/-- The 528 steps after reset perform the reset's CLEAR, one event a step (R161, R165), `cmd_ready` being 0 until the
last, and leave the state of R162's table; before the first event the pins have the OPEN levels `CLK_INIT` and
`DIO_INIT`. That the steps are counted from the fall of `rst` is log entry 2; the reset input is the spec's choice D13
(log entry 9); that the empty list of inputs presents nothing is log entry 1 (DESIGN CHOICE). -/
def Obligations.ResetCompletesAfter528Steps : Prop :=
  Host.Core.run Sys2Proof.core 528 State.reset =
    .next { mem := [], brightness := 7#32, colon := false, pins := ⟨true, true⟩, pending := [], inputs := [] } ∧
  (∀ n, n < 528 → ∃ t, Host.Core.run Sys2Proof.core n State.reset = .next t ∧ t.cmdReady = false) ∧
  State.reset.pins = ⟨Config.clkInit, Config.dioInit⟩

/-- A reset of a block with a canonical buffer, busy or not, gives the state after reset: its registers and its pending
CLEAR (R161), and the levels `CLK_INIT` and `DIO_INIT` before the first event after reset (R11, R30, R162). Three parts are
choices. That the events pending before are discarded is the spec's own choice D13 (R163), followed by the model (DESIGN
CHOICE, log entry 9). That those levels hold after a reset in mid-frame too, where R163 says that the wire is left in the
middle of a frame, is the model's inference (DEDUCED, log entry 3). That it happens in the step that sees `rst` is the
model's choice (DESIGN CHOICE, log entry 2). -/
def Obligations.ResetStepFromAnyState : Prop :=
  ∀ (s : State) (rest : List Input), Memory.wf s.mem = true → s.inputs = .reset :: rest →
    step s = .next { State.reset with inputs := rest }

/-! ## Rules of the whole machine -/

/-- The state after reset meets the invariant. -/
def Obligations.ResetMeetsTheInvariant : Prop := State.reset.Inv

/-- R36, R61, R95, R162: every step keeps the buffer canonical and its slots legal, what is pending the rest of a sequence
of digit writes, and the pins high once it has been performed. The canonical form of the buffer is the model's own
(log entry 5), and that an idle step changes nothing is its inference (DEDUCED, log entry 15). -/
def Obligations.EveryStepKeepsTheInvariant : Prop :=
  ∀ s t : State, s.Inv → step s = .next t → t.Inv

/-- R140, R166: from any state, if the host presents no reserved word, the block goes on for ever. That a list of inputs
that has ended presents nothing is the model's choice (DESIGN CHOICE, log entry 1). -/
def Obligations.BlockNeverStops : Prop :=
  ∀ (s : State), s.hostLegal → ∀ n, ∃ t, Host.Core.run Sys2Proof.core n s = .next t ∧ t.hostLegal

/-- R165, R166: with nothing more presented, as many steps as there are pending events perform them all, in order, and
leave the registers. That a list of inputs that has ended presents nothing is the model's choice (DESIGN CHOICE, log
entry 1). -/
def Obligations.PendingEventsAreAllPerformed : Prop :=
  ∀ s : State, s.inputs = [] →
    Host.Core.run Sys2Proof.core s.pending.length s =
      .next { s with pins := s.pins.writeAll s.pending, pending := [] } ∧
    pinsAlong s.pending.length s = s.pins.levels s.pending

/-- R23, R24: outside reset, `brightness` changes only when a SET of the new value is accepted, `colon` only when a
POINT of the new value is, and no register changes while events are pending. -/
def Obligations.OnlySetAndPointWriteTheirRegisters : Prop :=
  ∀ s t : State, step s = .next t → s.rst = false →
    (t.brightness ≠ s.brightness →
      s.pending = [] ∧ ∃ w rest, s.inputs = .present w :: rest ∧ decode w = .set t.brightness) ∧
    (t.colon ≠ s.colon →
      s.pending = [] ∧ ∃ w rest, s.inputs = .present w :: rest ∧ decode w = .point t.colon) ∧
    (s.pending ≠ [] → t.mem = s.mem)

/-- R24, R36: the colon register has no effect on a BIT at any address but 1. -/
def Obligations.ColonDoesNotReachOtherAddresses : Prop :=
  ∀ (v : Word) (a : Addr) (s t : State) (c : Bool), a ≠ 1#8 → exec (.bit v a) s = .next t →
    exec (.bit v a) { s with colon := c } = .next { t with colon := c }

/-- R170: the events of a command accepted by an idle block, with the buffer's invariant. -/
def Obligations.EventCountsOfCommands : Prop :=
  ∀ (s : State), s.pending = [] → Memory.wf s.mem = true → Memory.legal s.mem = true →
    (∀ v a t, exec (.bit v a) s = .next t → t.pending.length = if accept v a then 132 else 0) ∧
    (∀ v z t, exec (.showNum v z) s = .next t → t.pending.length = 528) ∧
    (∀ l t, exec (.set l) s = .next t → t.pending.length = 528) ∧
    (∀ e t, exec (.point e) s = .next t → t.pending.length = 132) ∧
    (∀ t, exec .clear s = .next t → t.pending.length = 528)

/-- The whole path of a command (R55, R61, R66, R94, R165): an idle block to which any host command is presented is,
after 529 steps, idle again with the command's registers and both pins high, and a receiver that watches the pins has
received exactly the three frames of each of the command's digit writes, in order. It rests on these of the model's
choices. That the acceptance takes the first of the 529 steps is log entry 8 (DEDUCED). A command of fewer than 528 events
leaves idle steps among the 529; that they change nothing is log entry 15 (DEDUCED), and that the list of inputs, once it
has ended, presents nothing is log entry 1 (DESIGN CHOICE). How the receiver takes bytes from its samples is log entry 11
(DEDUCED). The floor division that gives SHOW's digits (D7), the order of its digit writes (D8), and the frames without a
store of a sentinel above address 3 (D9) are the spec's own choices, followed by the model (DESIGN CHOICE, log entry 9). -/
def Obligations.CommandReachesTheReceiver : Prop :=
  ∀ (i : Instr) (w : CmdWord) (s : State), i.isCommand = true → encode i = .cmd48 w →
    s.Inv → s.pending = [] → s.inputs = [.present w] →
    Receiver.watch .start s.pins (pinsAlong 529 s) =
      ⟨none, (commandWrites i s).flatMap DigitWrite.frames⟩ ∧
    ∃ t, exec i { s with inputs := [] } = .next t ∧
      Host.Core.run Sys2Proof.core 529 s = .next { t with pins := ⟨true, true⟩, pending := [] }
end

