-- ==== Sys2Proof/Laws/Decode.lean ====
section
/-! SUPPORT. The fields of an encoded command word, and the word rebuilt from its fields. -/

namespace Sys2Proof

section
variable (v : Word) (a : Addr) (f : BitVec 1) (op : BitVec 3)

@[simp] theorem opField_cmdWord : opField (cmdWord v a f op) = op := by
  apply BitVec.eq_of_getLsbD_eq; intro i hi
  simp only [opField, cmdWord, BitVec.getLsbD_append, BitVec.getLsbD_extractLsb', hi, Nat.zero_add]
  simp

@[simp] theorem flagField_cmdWord : flagField (cmdWord v a f op) = f := by
  apply BitVec.eq_of_getLsbD_eq; intro i hi
  have h1 : ¬ 3 + i < 3 := by omega
  have h3 : 3 + i - 3 = i := by omega
  simp only [flagField, cmdWord, BitVec.getLsbD_append, BitVec.getLsbD_extractLsb', hi, h1, h3]
  simp

@[simp] theorem reservedField_cmdWord : reservedField (cmdWord v a f op) = 0#4 := by
  apply BitVec.eq_of_getLsbD_eq; intro i hi
  have h1 : ¬ 4 + i < 3 := by omega
  have h2 : ¬ 4 + i - 3 < 1 := by omega
  have h3 : 4 + i - 3 - 1 < 4 := by omega
  simp only [reservedField, cmdWord, BitVec.getLsbD_append, BitVec.getLsbD_extractLsb', hi, h1, h2, h3]
  simp

@[simp] theorem addrField_cmdWord : addrField (cmdWord v a f op) = a := by
  apply BitVec.eq_of_getLsbD_eq; intro i hi
  have h1 : ¬ 8 + i < 3 := by omega
  have h2 : ¬ 8 + i - 3 < 1 := by omega
  have h3 : ¬ 8 + i - 3 - 1 < 4 := by omega
  have h4 : 8 + i - 3 - 1 - 4 = i := by omega
  simp only [addrField, cmdWord, BitVec.getLsbD_append, BitVec.getLsbD_extractLsb', hi, h1, h2, h3, h4]
  simp

@[simp] theorem valueField_cmdWord : valueField (cmdWord v a f op) = v := by
  apply BitVec.eq_of_getLsbD_eq; intro i hi
  have h1 : ¬ 16 + i < 3 := by omega
  have h2 : ¬ 16 + i - 3 < 1 := by omega
  have h3 : ¬ 16 + i - 3 - 1 < 4 := by omega
  have h4 : ¬ 16 + i - 3 - 1 - 4 < 8 := by omega
  have h5 : 16 + i - 3 - 1 - 4 - 8 = i := by omega
  simp only [valueField, cmdWord, BitVec.getLsbD_append, BitVec.getLsbD_extractLsb', hi, h1, h2, h3, h4, h5]
  simp

end

/-- The fields make the word again (R56: they fill it). -/
theorem word_of_fields (w : CmdWord) :
    valueField w ++ addrField w ++ reservedField w ++ flagField w ++ opField w = w := by
  apply BitVec.eq_of_getLsbD_eq; intro i hi
  simp only [valueField, addrField, reservedField, flagField, opField, BitVec.getLsbD_append,
    BitVec.getLsbD_extractLsb']
  by_cases h1 : i < 3
  · simp [h1]
  by_cases h2 : i - 3 < 1
  · have : i = 3 := by omega
    subst this; simp
  by_cases h3 : i - 3 - 1 < 4
  · have e : 4 + (i - 3 - 1) = i := by omega
    simp only [h1, h2, h3, e]; simp
  by_cases h4 : i - 3 - 1 - 4 < 8
  · have e : 8 + (i - 3 - 1 - 4) = i := by omega
    simp only [h1, h2, h3, h4, e]; simp
  · have e : 16 + (i - 3 - 1 - 4 - 8) = i := by omega
    have h5 : i - 3 - 1 - 4 - 8 < 32 := by omega
    simp only [h1, h2, h3, h4, e, h5]; simp

/-- A word whose R field is 0 is the encoding of its other fields. -/
theorem cmdWord_of_fields (w : CmdWord) (h : reservedField w = 0#4) :
    cmdWord (valueField w) (addrField w) (flagField w) (opField w) = w := by
  have := word_of_fields w
  rwa [h] at this

@[simp] theorem flagOperand_flagBits (z : Bool) : flagOperand (flagBits z) = z := by cases z <;> rfl

@[simp] theorem flagBits_flagOperand (f : BitVec 1) : flagBits (flagOperand f) = f := by revert f; decide

/-- A bitwise AND goes part by part through a concatenation. -/
theorem append_and_append_parts {m n : Nat} (x x' : BitVec m) (y y' : BitVec n) :
    (x ++ y) &&& (x' ++ y') = (x &&& x') ++ (y &&& y') := by
  apply BitVec.eq_of_getLsbD_eq; intro i hi
  simp only [BitVec.getLsbD_and, BitVec.getLsbD_append]
  split <;> rfl

/-- Concatenations are equal part by part. -/
theorem append_eq_append_iff {m n : Nat} (x x' : BitVec m) (y y' : BitVec n) :
    (x ++ y) = (x' ++ y') ↔ x = x' ∧ y = y' := by
  constructor
  · intro h
    have low := congrArg (fun z => z.extractLsb' 0 n) h
    have high := congrArg (fun z => z.extractLsb' n m) h
    simp only [BitVec.extractLsb'_append_eq_right, BitVec.extractLsb'_append_eq_left] at low high
    exact ⟨high, low⟩
  · rintro ⟨rfl, rfl⟩; rfl

/-- A (match, mask) test of a command word, field by field. -/
theorem word_and_eq_iff (w : CmdWord) (v v' : Word) (a a' : Addr) (r r' : BitVec 4) (f f' : BitVec 1)
    (o o' : BitVec 3) :
    w &&& (v ++ a ++ r ++ f ++ o) = (v' ++ a' ++ r' ++ f' ++ o') ↔
      (((valueField w &&& v = v' ∧ addrField w &&& a = a') ∧ reservedField w &&& r = r') ∧
        flagField w &&& f = f') ∧ opField w &&& o = o' := by
  have h : w &&& (v ++ a ++ r ++ f ++ o) =
      (valueField w ++ addrField w ++ reservedField w ++ flagField w ++ opField w) &&& (v ++ a ++ r ++ f ++ o) := by
    rw [word_of_fields]
  rw [h, append_and_append_parts, append_and_append_parts, append_and_append_parts, append_and_append_parts,
    append_eq_append_iff, append_eq_append_iff, append_eq_append_iff, append_eq_append_iff]

/-- The F operand is bit 3. -/
theorem flagOperand_flagField (w : CmdWord) : flagOperand (flagField w) = w.getLsbD 3 := by
  have : flagField w = BitVec.ofBool (w.getLsbD 3) := by
    apply BitVec.eq_of_getLsbD_eq; intro i hi
    have : i = 0 := by omega
    subst this; simp [flagField]
  rw [this]; cases w.getLsbD 3 <;> rfl

/-- R59's test, on the named fields. -/
theorem reservedWord_iff (w : CmdWord) :
    reservedWord w = true ↔
      (opField w = 0#3 ∨ opField w = 6#3 ∨ opField w = 7#3 ∨ reservedField w ≠ 0#4 ∨
        (opField w = 1#3 ∧ addrField w ≠ 0#8) ∨
        (opField w = 2#3 ∧ (addrField w ≠ 0#8 ∨ flagField w ≠ 0#1)) ∨
        (opField w = 3#3 ∧ flagField w ≠ 0#1) ∨
        (opField w = 4#3 ∧ (valueField w ≠ 0#32 ∨ addrField w ≠ 0#8)) ∨
        (opField w = 5#3 ∧ (valueField w ≠ 0#32 ∨ addrField w ≠ 0#8 ∨ flagField w ≠ 0#1))) := by
  simp [reservedWord, opField, flagField, reservedField, addrField, valueField, or_assoc]

/-- Everything the decoder can answer, with the fields that make it answer so (R60). -/
theorem decode_cases (w : CmdWord) :
    (reservedField w = 0#4 ∧ opField w = 1#3 ∧ addrField w = 0#8 ∧
      decode w = .showNum (valueField w) (flagOperand (flagField w))) ∨
    (reservedField w = 0#4 ∧ opField w = 2#3 ∧ addrField w = 0#8 ∧ flagField w = 0#1 ∧
      decode w = .set (valueField w)) ∨
    (reservedField w = 0#4 ∧ opField w = 3#3 ∧ flagField w = 0#1 ∧ decode w = .bit (valueField w) (addrField w)) ∨
    (reservedField w = 0#4 ∧ opField w = 4#3 ∧ valueField w = 0#32 ∧ addrField w = 0#8 ∧
      decode w = .point (flagOperand (flagField w))) ∨
    (reservedField w = 0#4 ∧ opField w = 5#3 ∧ valueField w = 0#32 ∧ addrField w = 0#8 ∧ flagField w = 0#1 ∧
      decode w = .clear) ∨
    (reservedWord w = true ∧ decode w = .reserved w) := by
  have hops : ∀ o : BitVec 3, o = 0#3 ∨ o = 1#3 ∨ o = 2#3 ∨ o = 3#3 ∨ o = 4#3 ∨ o = 5#3 ∨ o = 6#3 ∨ o = 7#3 := by
    decide
  have hop := hops (opField w)
  simp only [reservedWord_iff, decode]
  by_cases hr : reservedField w = 0#4
  · by_cases ha : addrField w = 0#8 <;> by_cases hf : flagField w = 0#1 <;> by_cases hv : valueField w = 0#32 <;>
      rcases hop with h | h | h | h | h | h | h | h <;> simp [h, hr, ha, hf, hv]
  · simp [hr]

end Sys2Proof
end

