-- ==== Sys2Proof/Laws/Memory.lean ====
section
/-! SUPPORT. The digit buffer's laws: a read after a write, the canonical form and the legality of the slots. -/

namespace Sys2Proof.Machine

namespace Memory

@[simp] theorem read_nil (a : Nat) : Memory.read [] a = unlisted := rfl

theorem read_erase_same (m : Memory) (a : Nat) : Memory.read (Memory.erase m a) a = unlisted := by
  induction m with
  | nil => rfl
  | cons c m ih =>
    unfold Memory.erase
    split
    · exact ih
    · rename_i h; unfold Memory.read; simp [h, ih]

theorem read_erase_other (m : Memory) {a b : Nat} (h : a ≠ b) :
    Memory.read (Memory.erase m a) b = Memory.read m b := by
  induction m with
  | nil => rfl
  | cons c m ih =>
    unfold Memory.erase
    split
    · rename_i hc; rw [ih]; conv_rhs => unfold Memory.read
      rw [if_neg (by omega)]
    · unfold Memory.read; rw [ih]

theorem read_insert_same (m : Memory) (a : Nat) (v : Byte) (h : Memory.erase m a = m) :
    Memory.read (Memory.insert m (a, v)) a = v := by
  induction m with
  | nil => simp [Memory.insert, Memory.read]
  | cons c m ih =>
    have hc : ¬ c.1 = a := by
      intro hc
      have hlen : ∀ n : Memory, (Memory.erase n a).length ≤ n.length := by
        intro n
        induction n with
        | nil => simp [Memory.erase]
        | cons d n ihn => unfold Memory.erase; split <;> simp <;> omega
      have := congrArg List.length h
      unfold Memory.erase at this
      rw [if_pos hc] at this
      have := hlen m
      simp at *; omega
    have hm : Memory.erase m a = m := by
      unfold Memory.erase at h; rw [if_neg hc] at h; exact (List.cons.inj h).2
    unfold Memory.insert
    split
    · unfold Memory.read; rw [if_neg hc]; exact ih hm
    · simp [Memory.read]

theorem read_insert_other (m : Memory) {a b : Nat} (v : Byte) (h : a ≠ b) :
    Memory.read (Memory.insert m (a, v)) b = Memory.read m b := by
  induction m with
  | nil => simp [Memory.insert, Memory.read, h]
  | cons c m ih =>
    unfold Memory.insert
    split
    · unfold Memory.read; rw [ih]
    · conv_lhs => unfold Memory.read
      rw [if_neg (by simpa using h)]

theorem erase_erase (m : Memory) (a : Nat) : Memory.erase (Memory.erase m a) a = Memory.erase m a := by
  induction m with
  | nil => rfl
  | cons c m ih =>
    by_cases hc : c.1 = a
    · simp [Memory.erase, hc, ih]
    · simp [Memory.erase, hc, ih]

theorem erase_insert (m : Memory) (a : Nat) (v : Byte) :
    Memory.erase (Memory.insert m (a, v)) a = Memory.erase m a := by
  induction m with
  | nil => simp [Memory.insert, Memory.erase]
  | cons c m ih =>
    unfold Memory.insert
    split
    · conv_lhs => unfold Memory.erase
      conv_rhs => unfold Memory.erase
      rw [ih]
    · conv_lhs => unfold Memory.erase
      simp

/-- A read after a write: the written slot has the value, every other slot is as before. It needs no canonical form. -/
theorem read_write (m : Memory) (a b : Nat) (v : Byte) :
    Memory.read (Memory.write m a v) b = if a = b then v else Memory.read m b := by
  unfold Memory.write
  split
  · rename_i hv
    by_cases hab : a = b
    · subst hab; simp [read_erase_same, hv]
    · simp [read_erase_other m hab, hab]
  · by_cases hab : a = b
    · subst hab; rw [read_insert_same _ _ _ (erase_erase m a)]; simp
    · rw [read_insert_other _ _ hab, read_erase_other m hab]; simp [hab]

/-- Writing a value twice is writing it once. -/
theorem write_write (m : Memory) (a : Nat) (v : Byte) :
    Memory.write (Memory.write m a v) a v = Memory.write m a v := by
  unfold Memory.write
  split
  · exact erase_erase m a
  · rw [erase_insert, erase_erase]

/-! ## The canonical form -/

theorem wfFrom_cons {lo : Nat} {c : Host.Cell} {m : Memory} :
    Memory.wfFrom lo (c :: m) = true ↔
      lo ≤ c.1 ∧ c.1 < slotCount ∧ c.2 ≠ unlisted ∧ Memory.wfFrom (c.1 + 1) m = true := by
  simp [Memory.wfFrom, and_assoc]

theorem wfFrom_mono {m : Memory} : ∀ {lo lo' : Nat}, lo' ≤ lo → Memory.wfFrom lo m = true →
    Memory.wfFrom lo' m = true := by
  cases m with
  | nil => intros; rfl
  | cons c m =>
    intro lo lo' h hw
    rw [wfFrom_cons] at hw ⊢
    exact ⟨by omega, hw.2⟩

theorem wfFrom_erase {m : Memory} (a : Nat) : ∀ {lo : Nat}, Memory.wfFrom lo m = true →
    Memory.wfFrom lo (Memory.erase m a) = true := by
  induction m with
  | nil => intros; rfl
  | cons c m ih =>
    intro lo h
    rw [wfFrom_cons] at h
    unfold Memory.erase
    split
    · exact wfFrom_mono (by omega) (ih h.2.2.2)
    · rw [wfFrom_cons]; exact ⟨h.1, h.2.1, h.2.2.1, ih h.2.2.2⟩

theorem wfFrom_insert {m : Memory} {a : Nat} {v : Byte} (ha : a < slotCount) (hv : v ≠ unlisted) :
    ∀ {lo : Nat}, lo ≤ a → Memory.erase m a = m → Memory.wfFrom lo m = true →
      Memory.wfFrom lo (Memory.insert m (a, v)) = true := by
  induction m with
  | nil => intro lo hlo _ _; simp [Memory.insert, Memory.wfFrom, hlo, ha, hv]
  | cons c m ih =>
    intro lo hlo he h
    rw [wfFrom_cons] at h
    have hc : ¬ c.1 = a := by
      intro hc
      have hr := congrArg (fun n => Memory.read n a) he
      simp only [read_erase_same] at hr
      unfold Memory.read at hr
      rw [if_pos hc] at hr
      exact h.2.2.1 hr.symm
    have hm : Memory.erase m a = m := by
      unfold Memory.erase at he; rw [if_neg hc] at he; exact (List.cons.inj he).2
    unfold Memory.insert
    split
    · rename_i hlt
      rw [wfFrom_cons]
      exact ⟨h.1, h.2.1, h.2.2.1, ih (by simpa using hlt) hm h.2.2.2⟩
    · rename_i hge
      have hlt : a < c.1 := by
        have : ¬ c.1 < a := by simpa using hge
        omega
      rw [wfFrom_cons, wfFrom_cons]
      exact ⟨hlo, ha, hv, by simpa using hlt, h.2.1, h.2.2.1, h.2.2.2⟩

/-- A write to a slot keeps the canonical form. -/
theorem wf_write {m : Memory} {a : Nat} (v : Byte) (ha : a < slotCount) (h : Memory.wf m = true) :
    Memory.wf (Memory.write m a v) = true := by
  unfold Memory.write Memory.wf
  split
  · exact wfFrom_erase a h
  · exact wfFrom_insert ha ‹_› (Nat.zero_le _) (erase_erase m a) (wfFrom_erase a h)

/-- The reset's memory has the canonical form. -/
theorem wf_nil : Memory.wf [] = true := rfl

/-- In the canonical form a slot below the first cell reads as unlisted. -/
theorem read_below {m : Memory} : ∀ {lo a : Nat}, Memory.wfFrom lo m = true → a < lo →
    Memory.read m a = unlisted := by
  induction m with
  | nil => intros; rfl
  | cons c m ih =>
    intro lo a h ha
    rw [wfFrom_cons] at h
    unfold Memory.read
    rw [if_neg (by omega)]
    exact ih h.2.2.2 (by omega)

/-- Canonical memories are equal when their slots are (so equal buffers are equal data). -/
theorem ext_of_wfFrom {m n : Memory} : ∀ {lo : Nat}, Memory.wfFrom lo m = true → Memory.wfFrom lo n = true →
    (∀ a, a < slotCount → Memory.read m a = Memory.read n a) → m = n := by
  induction m generalizing n with
  | nil =>
    intro lo _ hn h
    cases n with
    | nil => rfl
    | cons d n =>
      rw [wfFrom_cons] at hn
      have := h d.1 hn.2.1
      simp [Memory.read] at this
      exact absurd this.symm hn.2.2.1
  | cons c m ih =>
    intro lo hm hn h
    rw [wfFrom_cons] at hm
    cases n with
    | nil =>
      have := h c.1 hm.2.1
      simp [Memory.read] at this
      exact absurd this hm.2.2.1
    | cons d n =>
      rw [wfFrom_cons] at hn
      have hcd : c.1 = d.1 := by
        rcases Nat.lt_trichotomy c.1 d.1 with hlt | heq | hgt
        · have := h c.1 hm.2.1
          simp only [Memory.read] at this
          rw [if_pos trivial, if_neg (by omega), read_below hn.2.2.2 (by omega)] at this
          exact absurd this hm.2.2.1
        · exact heq
        · have := h d.1 hn.2.1
          simp only [Memory.read] at this
          rw [if_pos trivial, if_neg (by omega), read_below hm.2.2.2 (by omega)] at this
          exact absurd this.symm hn.2.2.1
      have hv : c.2 = d.2 := by
        have := h c.1 hm.2.1
        simpa [Memory.read, hcd] using this
      have hrest : m = n := by
        refine ih hm.2.2.2 (hcd ▸ hn.2.2.2) ?_
        intro a ha
        by_cases hac : a = c.1
        · rw [hac, read_below hm.2.2.2 (by omega), read_below hn.2.2.2 (by omega)]
        · have := h a ha
          simp only [Memory.read] at this
          rwa [if_neg (by omega), if_neg (by omega)] at this
      rw [Prod.ext hcd hv, hrest]

theorem ext_of_wf {m n : Memory} (hm : Memory.wf m = true) (hn : Memory.wf n = true)
    (h : ∀ a, a < slotCount → Memory.read m a = Memory.read n a) : m = n :=
  ext_of_wfFrom hm hn h

/-- Writing the value a slot holds changes nothing. -/
theorem write_self {m : Memory} {a : Nat} (ha : a < slotCount) (h : Memory.wf m = true) :
    Memory.write m a (Memory.read m a) = m := by
  refine ext_of_wf (wf_write _ ha h) h ?_
  intro b _
  rw [read_write]
  split
  · rename_i hab; rw [hab]
  · rfl

/-! ## Legal slots -/

theorem legal_iff {m : Memory} : Memory.legal m = true ↔ ∀ a, a < slotCount → legalSlot (Memory.read m a) = true := by
  constructor
  · intro h a ha
    simp [Memory.legal] at h
    have : a = 0 ∨ a = 1 ∨ a = 2 ∨ a = 3 := by unfold slotCount at ha; omega
    rcases this with rfl | rfl | rfl | rfl <;> simp [h]
  · intro h
    simp [Memory.legal, h 0 (by decide), h 1 (by decide), h 2 (by decide), h 3 (by decide)]

/-- A legal value written keeps the slots legal. -/
theorem legal_write {m : Memory} {v : Byte} (a : Nat) (hv : legalSlot v = true) (h : Memory.legal m = true) :
    Memory.legal (Memory.write m a v) = true := by
  rw [legal_iff] at h ⊢
  intro b hb
  rw [read_write]
  split
  · exact hv
  · exact h b hb

end Memory

/-! ## Slot access in the state -/

theorem addr_le_three_iff (a : Addr) : a ≤ 3#8 ↔ a.toNat < slotCount := by
  rw [BitVec.le_def]; unfold slotCount; simp; omega

/-- MemWrite inside the buffer. -/
theorem State.memWrite_mem_of_le {a : Addr} (s : State) (v : Word) (h : a ≤ 3#8) :
    (s.memWrite a v).mem = Memory.write s.mem a.toNat (v.setWidth 8) := by
  unfold State.memWrite; rw [if_pos h]

/-- MemWrite beyond the buffer stores nothing and changes nothing (R42). -/
theorem State.memWrite_of_not_le {a : Addr} (s : State) (v : Word) (h : ¬ a ≤ 3#8) : s.memWrite a v = s := by
  unfold State.memWrite; rw [if_neg h]

/-- MemWrite keeps the canonical form. -/
theorem State.memWrite_wf (s : State) (a : Addr) (v : Word) (h : Memory.wf s.mem = true) :
    Memory.wf (s.memWrite a v).mem = true := by
  by_cases ha : a ≤ 3#8
  · rw [s.memWrite_mem_of_le v ha]; exact Memory.wf_write _ ((addr_le_three_iff a).1 ha) h
  · rw [s.memWrite_of_not_le v ha]; exact h

end Sys2Proof.Machine
end

