-- ==== Sys2Proof/Laws/State.lean ====
section
/-! SUPPORT. One lemma per field and update of `State`. -/

namespace Sys2Proof.Machine

variable (s : State)

@[simp] theorem State.emit_mem (t) : (s.emit t).mem = s.mem := rfl
@[simp] theorem State.emit_brightness (t) : (s.emit t).brightness = s.brightness := rfl
@[simp] theorem State.emit_colon (t) : (s.emit t).colon = s.colon := rfl
@[simp] theorem State.emit_pins (t) : (s.emit t).pins = s.pins := rfl
@[simp] theorem State.emit_pending (t) : (s.emit t).pending = s.pending ++ t := rfl
@[simp] theorem State.emit_inputs (t) : (s.emit t).inputs = s.inputs := rfl

@[simp] theorem State.memWrite_brightness (a v) : (s.memWrite a v).brightness = s.brightness := by
  unfold State.memWrite; split <;> rfl
@[simp] theorem State.memWrite_colon (a v) : (s.memWrite a v).colon = s.colon := by
  unfold State.memWrite; split <;> rfl
@[simp] theorem State.memWrite_pins (a v) : (s.memWrite a v).pins = s.pins := by
  unfold State.memWrite; split <;> rfl
@[simp] theorem State.memWrite_pending (a v) : (s.memWrite a v).pending = s.pending := by
  unfold State.memWrite; split <;> rfl
@[simp] theorem State.memWrite_inputs (a v) : (s.memWrite a v).inputs = s.inputs := by
  unfold State.memWrite; split <;> rfl

@[simp] theorem State.popInput_mem : s.popInput.mem = s.mem := rfl
@[simp] theorem State.popInput_brightness : s.popInput.brightness = s.brightness := rfl
@[simp] theorem State.popInput_colon : s.popInput.colon = s.colon := rfl
@[simp] theorem State.popInput_pins : s.popInput.pins = s.pins := rfl
@[simp] theorem State.popInput_pending : s.popInput.pending = s.pending := rfl
@[simp] theorem State.popInput_inputs : s.popInput.inputs = s.inputs.tail := rfl

@[simp] theorem State.performNext_mem : s.performNext.mem = s.mem := by
  unfold State.performNext; split <;> rfl
@[simp] theorem State.performNext_brightness : s.performNext.brightness = s.brightness := by
  unfold State.performNext; split <;> rfl
@[simp] theorem State.performNext_colon : s.performNext.colon = s.colon := by
  unfold State.performNext; split <;> rfl
@[simp] theorem State.performNext_inputs : s.performNext.inputs = s.inputs := by
  unfold State.performNext; split <;> rfl
@[simp] theorem State.performNext_pending : s.performNext.pending = s.pending.tail := by
  unfold State.performNext; split <;> simp [*]

@[simp] theorem State.drain_mem : s.drain.mem = s.mem := rfl
@[simp] theorem State.drain_brightness : s.drain.brightness = s.brightness := rfl
@[simp] theorem State.drain_colon : s.drain.colon = s.colon := rfl
@[simp] theorem State.drain_pins : s.drain.pins = s.pins.writeAll s.pending := rfl
@[simp] theorem State.drain_pending : s.drain.pending = [] := rfl
@[simp] theorem State.drain_inputs : s.drain.inputs = s.inputs := rfl

@[simp] theorem State.reset_mem : State.reset.mem = [] := rfl
@[simp] theorem State.reset_brightness : State.reset.brightness = 7#32 := rfl
@[simp] theorem State.reset_colon : State.reset.colon = false := rfl
@[simp] theorem State.reset_pins : State.reset.pins = ⟨Config.clkInit, Config.dioInit⟩ := rfl
@[simp] theorem State.reset_pending : State.reset.pending = clearTrace false 7#32 := rfl
@[simp] theorem State.reset_inputs : State.reset.inputs = [] := rfl

/-- Two states with the same fields are one state. -/
theorem State.ext_fields {s t : State} (hm : s.mem = t.mem) (hb : s.brightness = t.brightness) (hc : s.colon = t.colon)
    (hp : s.pins = t.pins) (he : s.pending = t.pending) (hi : s.inputs = t.inputs) : s = t := by
  cases s; cases t; simp_all

/-- `busy` in terms of `pending` (R32). -/
theorem State.busy_eq_true : s.busy = true ↔ s.pending ≠ [] := by
  unfold State.busy; cases s.pending <;> simp

theorem State.busy_eq_false : s.busy = false ↔ s.pending = [] := by
  unfold State.busy; cases s.pending <;> simp

/-- What a sequencer step leaves when there is something to perform (R165). -/
theorem State.performNext_cons {e rest} (h : s.pending = e :: rest) :
    s.performNext = { s with pins := s.pins.write e, pending := rest } := by
  unfold State.performNext; simp [h]

theorem State.performNext_nil (h : s.pending = []) : s.performNext = s := by
  unfold State.performNext; simp [h]

end Sys2Proof.Machine
end

