-- ==== Sys2Proof/Laws/Wire.lean ====
section
/-! SUPPORT. Laws of the wire: traces, the levels they leave, and what a receiver makes of START, WRITEBYTE and STOP. -/

namespace Sys2Proof.Machine

@[simp] theorem Pins.writeAll_nil (p : Pins) : p.writeAll [] = p := rfl
@[simp] theorem Pins.writeAll_cons (p : Pins) (e t) : p.writeAll (e :: t) = (p.write e).writeAll t := rfl
theorem Pins.writeAll_append (p : Pins) (t u) : p.writeAll (t ++ u) = (p.writeAll t).writeAll u := by
  simp [Pins.writeAll]

@[simp] theorem Pins.write_clk (p : Pins) (l) : p.write (clkWrite l) = ⟨l, p.dio⟩ := rfl
@[simp] theorem Pins.write_dio (p : Pins) (l) : p.write (dioWrite l) = ⟨p.clk, l⟩ := rfl

@[simp] theorem Pins.levels_nil (p : Pins) : p.levels [] = [] := rfl
@[simp] theorem Pins.levels_cons (p : Pins) (e t) : p.levels (e :: t) = p.write e :: (p.write e).levels t := rfl
theorem Pins.levels_append (p : Pins) (t u) : p.levels (t ++ u) = p.levels t ++ (p.writeAll t).levels u := by
  induction t generalizing p with
  | nil => rfl
  | cons e t ih => simp [ih]

/-- The last level of a trace's electrical view is what the trace leaves. -/
theorem Pins.getLastD_levels (p : Pins) (t) : (p.levels t).getLastD p = p.writeAll t := by
  induction t generalizing p with
  | nil => rfl
  | cons e t ih => rw [Pins.levels_cons, List.getLastD_cons]; exact ih _

/-- WRITEBYTE as its nine bit slots. -/
theorem writeByteTrace_eq (b : Byte) :
    writeByteTrace b =
      bitSlot (b.getLsbD 0) ++ (bitSlot (b.getLsbD 1) ++ (bitSlot (b.getLsbD 2) ++ (bitSlot (b.getLsbD 3) ++
        (bitSlot (b.getLsbD 4) ++ (bitSlot (b.getLsbD 5) ++ (bitSlot (b.getLsbD 6) ++ (bitSlot (b.getLsbD 7) ++
          bitSlot true))))))) := by
  simp [writeByteTrace]

@[simp] theorem Pins.writeAll_bitSlot (p : Pins) (l) : p.writeAll (bitSlot l) = ⟨true, l⟩ := rfl
@[simp] theorem Pins.writeAll_startTrace (p : Pins) : p.writeAll startTrace = ⟨false, false⟩ := rfl
@[simp] theorem Pins.writeAll_stopTrace (p : Pins) : p.writeAll stopTrace = ⟨true, true⟩ := rfl
@[simp] theorem Pins.writeAll_writeByteTrace (p : Pins) (b) : p.writeAll (writeByteTrace b) = ⟨true, true⟩ := by
  simp [writeByteTrace_eq, Pins.writeAll_append]

/-- A frame leaves both pins high. -/
theorem Pins.writeAll_frameTrace (p : Pins) (bs) : p.writeAll (frameTrace bs) = ⟨true, true⟩ := by
  simp [frameTrace, Pins.writeAll_append]

theorem Pins.writeAll_digitWrite (p : Pins) (a b l) : p.writeAll (digitWrite a b l) = ⟨true, true⟩ := by
  simp [digitWrite, dispctrlFrame, Pins.writeAll_append, Pins.writeAll_frameTrace]

/-- Digit writes leave both pins high, and so does doing nothing when they are high. -/
theorem Pins.writeAll_digitWritesTrace (ws) : Pins.writeAll ⟨true, true⟩ (digitWritesTrace ws) = ⟨true, true⟩ := by
  induction ws with
  | nil => rfl
  | cons d ws ih => simp [digitWritesTrace, Pins.writeAll_append, Pins.writeAll_digitWrite] at ih ⊢; exact ih

/-! ## Lengths (R170) -/

@[simp] theorem startTrace_length : startTrace.length = 4 := rfl
@[simp] theorem stopTrace_length : stopTrace.length = 4 := rfl
@[simp] theorem writeByteTrace_length (b) : (writeByteTrace b).length = 27 := by simp [writeByteTrace_eq, bitSlot]

/-- A frame of `n` bytes has `8 + 27n` events (R90). -/
theorem frameTrace_length (bs) : (frameTrace bs).length = 8 + 27 * bs.length := by
  have h : (bs.flatMap writeByteTrace).length = 27 * bs.length := by
    induction bs with
    | nil => rfl
    | cons b bs ih => simp [ih]; omega
  simp [frameTrace, h]; omega

theorem digitWrite_size (a b l) : (digitWrite a b l).length = 132 := by
  simp [digitWrite, modeFrame, addrDataFrame, dispctrlFrame, frameTrace_length]

theorem digitWritesTrace_length (ws) : (digitWritesTrace ws).length = 132 * ws.length := by
  induction ws with
  | nil => rfl
  | cons d ws ih => simp [digitWritesTrace, digitWrite_size] at ih ⊢; omega

theorem digitWritesTrace_append (ws us) :
    digitWritesTrace (ws ++ us) = digitWritesTrace ws ++ digitWritesTrace us := by
  simp [digitWritesTrace]

/-! ## The receiver -/

@[simp] theorem Receiver.watch_nil (r : Receiver) (p) : r.watch p [] = r := rfl
@[simp] theorem Receiver.watch_cons (r : Receiver) (p q l) : r.watch p (q :: l) = (r.see p q).watch q l := rfl

/-- Watching one sequence of levels after another. -/
theorem Receiver.watch_append (r : Receiver) (p l m) :
    r.watch p (l ++ m) = (r.watch p l).watch (l.getLastD p) m := by
  induction l generalizing r p with
  | nil => rfl
  | cons q l ih => rw [List.cons_append, Receiver.watch_cons, List.getLastD_cons]; exact ih _ _

/-- Watching one trace after another. -/
theorem Receiver.watch_levels_append (r : Receiver) (p : Pins) (t u) :
    r.watch p (p.levels (t ++ u)) = (r.watch p (p.levels t)).watch (p.writeAll t) ((p.writeAll t).levels u) := by
  rw [Pins.levels_append, Receiver.watch_append, Pins.getLastD_levels]

/-- Levels that stay the same tell the receiver nothing. -/
theorem Receiver.watch_replicate (r : Receiver) (p) (n) : r.watch p (List.replicate n p) = r := by
  induction n with
  | zero => rfl
  | succ n ih =>
    have : r.see p p = r := by obtain ⟨c, d⟩ := p; cases c <;> cases d <;> rfl
    simp [List.replicate_succ, this, ih]

/-- A bit slot inside a frame adds its bit, wherever CLK and DIO were low or high before it (R82). -/
theorem Receiver.watch_bitSlot (bs fr) (p : Pins) (l : Bool) :
    Receiver.watch ⟨some bs, fr⟩ p (p.levels (bitSlot l)) = ⟨some (bs ++ [l]), fr⟩ := by
  obtain ⟨c, d⟩ := p
  cases c <;> cases d <;> cases l <;> simp [bitSlot, Receiver.see]

/-- A WRITEBYTE inside a frame adds its eight bits and the 1 of the acknowledge slot. -/
theorem Receiver.watch_writeByteTrace (bs fr) (p : Pins) (b : Byte) :
    Receiver.watch ⟨some bs, fr⟩ p (p.levels (writeByteTrace b)) =
      ⟨some (bs ++ [b.getLsbD 0, b.getLsbD 1, b.getLsbD 2, b.getLsbD 3, b.getLsbD 4, b.getLsbD 5, b.getLsbD 6,
        b.getLsbD 7, true]), fr⟩ := by
  simp [writeByteTrace_eq, Receiver.watch_levels_append, Receiver.watch_bitSlot]

/-- A START opens a frame for a receiver that is in none, whatever the levels before it (R80). -/
theorem Receiver.watch_startTrace (fr) (p : Pins) :
    Receiver.watch ⟨none, fr⟩ p (p.levels startTrace) = ⟨some [], fr⟩ := by
  obtain ⟨c, d⟩ := p
  cases c <;> cases d <;> rfl

/-- A STOP closes the frame (R81), after a WRITEBYTE or right after a START; its own rising edge adds one sample. -/
theorem Receiver.watch_stopTrace (bs fr) (p : Pins) (h : p = ⟨true, true⟩ ∨ p = ⟨false, false⟩) :
    Receiver.watch ⟨some bs, fr⟩ p (p.levels stopTrace) = ⟨none, fr ++ [bytesOfSamples (bs ++ [false])]⟩ := by
  rcases h with rfl | rfl <;> simp [stopTrace, Receiver.see]

theorem byteOfBits_getLsbD (b : Byte) :
    byteOfBits (b.getLsbD 0) (b.getLsbD 1) (b.getLsbD 2) (b.getLsbD 3) (b.getLsbD 4) (b.getLsbD 5) (b.getLsbD 6)
      (b.getLsbD 7) = b := by
  revert b; decide

end Sys2Proof.Machine
end

