-- ==== Sys2Proof/Laws/Ops.lean ====
section
/-! SUPPORT. What each shared operation can do, said once. -/

namespace Sys2Proof.Machine

/-! ## The gate and the slots (R36, R111) -/

/-- An accepted value leaves a legal slot. -/
theorem legalSlot_of_accept {v : Word} {a : Addr} (h : accept v a = true) : legalSlot (v.setWidth 8) = true := by
  simp [accept, blank, zeroFill] at h
  rcases h with (rfl | rfl) | ⟨h, _⟩
  · decide
  · decide
  · have h1 : v.toNat ≤ 9 := by simpa [BitVec.le_def] using h
    simp only [legalSlot, Bool.or_eq_true, decide_eq_true_eq]
    refine Or.inl (Or.inl ?_)
    rw [BitVec.le_def]
    simp only [BitVec.toNat_setWidth, BitVec.toNat_ofNat]
    omega

/-- The raw value of a legal slot is accepted at every slot's address. -/
theorem accept_of_legalSlot {b : Byte} {a : Addr} (hb : legalSlot b = true) (ha : a ≤ 3#8) :
    accept (slotOperand b) a = true := by
  simp [legalSlot] at hb
  rcases hb with (hb | rfl) | rfl
  · have : slotOperand b ≤ 9#32 := by
      rw [BitVec.le_def] at *
      simp [slotOperand] at *
      omega
    simp [accept, ha, this]
  · rfl
  · rfl

/-- A slot's value survives the widening to an operand. -/
@[simp] theorem slotOperand_setWidth (b : Byte) : (slotOperand b).setWidth 8 = b := by
  simp [slotOperand]

@[simp] theorem slotAddr_toNat (a : Fin 4) : (slotAddr a).toNat = a.val := by
  simp [slotAddr]; omega

theorem slotAddr_le (a : Fin 4) : slotAddr a ≤ 3#8 := by
  rw [addr_le_three_iff, slotAddr_toNat]; exact a.isLt

/-! ## The BIT transition (R110) -/

/-- An accepted BIT: its digit write is appended and its slot stored (R112). -/
theorem bitTransition_of_accept {v : Word} {a : Addr} (s : State) (h : accept v a = true) :
    bitTransition v a s = (s.emit (digitWrite a (segByte v a s.colon) s.brightness)).memWrite a v := by
  simp [bitTransition, h, bitTrace]

/-- A rejected BIT: nothing at all (R113). -/
theorem bitTransition_of_reject {v : Word} {a : Addr} (s : State) (h : accept v a = false) :
    bitTransition v a s = s := by
  simp [bitTransition, h]

section
variable (v : Word) (a : Addr) (s : State)

@[simp] theorem bitTransition_brightness : (bitTransition v a s).brightness = s.brightness := by
  unfold bitTransition; split <;> simp
@[simp] theorem bitTransition_colon : (bitTransition v a s).colon = s.colon := by
  unfold bitTransition; split <;> simp
@[simp] theorem bitTransition_pins : (bitTransition v a s).pins = s.pins := by
  unfold bitTransition; split <;> simp
@[simp] theorem bitTransition_inputs : (bitTransition v a s).inputs = s.inputs := by
  unfold bitTransition; split <;> simp

/-- What a BIT appends: its digit write or nothing. -/
theorem bitTransition_pending :
    (bitTransition v a s).pending =
      s.pending ++ if accept v a then digitWrite a (segByte v a s.colon) s.brightness else [] := by
  unfold bitTransition
  split <;> simp [*, bitTrace]

/-- What a BIT stores: one slot or none. -/
theorem bitTransition_mem :
    (bitTransition v a s).mem =
      if accept v a = true ∧ a ≤ 3#8 then Memory.write s.mem a.toNat (v.setWidth 8) else s.mem := by
  unfold bitTransition
  by_cases h : accept v a = true <;> by_cases ha : a ≤ 3#8 <;> simp [h, ha, State.memWrite]

/-- A BIT keeps the canonical form. -/
theorem bitTransition_wf (h : Memory.wf s.mem = true) : Memory.wf (bitTransition v a s).mem = true := by
  rw [bitTransition_mem]
  split
  · rename_i hc; exact Memory.wf_write _ ((addr_le_three_iff a).1 hc.2) h
  · exact h

/-- A BIT keeps the slots legal (R36, b). -/
theorem bitTransition_legal (h : Memory.legal s.mem = true) : Memory.legal (bitTransition v a s).mem = true := by
  rw [bitTransition_mem]
  split
  · rename_i hc; exact Memory.legal_write _ (legalSlot_of_accept hc.1) h
  · exact h

end

/-- What a legal slot sent again does in a canonical buffer: its digit write, and no register (R130, R132). -/
theorem resend_of_legal {s : State} (a : Fin 4) (hw : Memory.wf s.mem = true) (hl : Memory.legal s.mem = true) :
    resend a s =
      s.emit (digitWrite (slotAddr a) (segByte (slotOperand (s.memRead a)) (slotAddr a) s.colon) s.brightness) := by
  have hacc : accept (slotOperand (s.memRead a)) (slotAddr a) = true :=
    accept_of_legalSlot (Memory.legal_iff.1 hl a.val a.isLt) (slotAddr_le a)
  unfold resend
  rw [bitTransition_of_accept s hacc]
  apply State.ext_fields <;> simp
  rw [State.memWrite_mem_of_le _ _ (slotAddr_le a)]
  simp [State.memRead]
  exact Memory.write_self a.isLt hw

@[simp] theorem resend_brightness (a) (s : State) : (resend a s).brightness = s.brightness := by simp [resend]
@[simp] theorem resend_colon (a) (s : State) : (resend a s).colon = s.colon := by simp [resend]
@[simp] theorem resend_pins (a) (s : State) : (resend a s).pins = s.pins := by simp [resend]
@[simp] theorem resend_inputs (a) (s : State) : (resend a s).inputs = s.inputs := by simp [resend]

@[simp] theorem showPosition_brightness (p a) (s : State) : (showPosition p a s).brightness = s.brightness := by
  simp [showPosition]
@[simp] theorem showPosition_colon (p a) (s : State) : (showPosition p a s).colon = s.colon := by
  simp [showPosition]
@[simp] theorem showPosition_pins (p a) (s : State) : (showPosition p a s).pins = s.pins := by
  simp [showPosition]
@[simp] theorem showPosition_inputs (p a) (s : State) : (showPosition p a s).inputs = s.inputs := by
  simp [showPosition]

@[simp] theorem clearTransition_brightness (s : State) : (clearTransition s).brightness = s.brightness := by
  simp [clearTransition]
@[simp] theorem clearTransition_colon (s : State) : (clearTransition s).colon = s.colon := by simp [clearTransition]
@[simp] theorem clearTransition_pins (s : State) : (clearTransition s).pins = s.pins := by simp [clearTransition]
@[simp] theorem clearTransition_inputs (s : State) : (clearTransition s).inputs = s.inputs := by
  simp [clearTransition]

/-- BLANK is accepted at every address (R111, C1). -/
@[simp] theorem accept_blank (a : Addr) : accept blank a = true := rfl

/-- A BLANK written to a slot. -/
theorem bitTransition_blank_mem {a : Addr} (s : State) (h : a ≤ 3#8) :
    (bitTransition blank a s).mem = Memory.write s.mem a.toNat unlisted := by
  rw [bitTransition_mem, if_pos ⟨accept_blank a, h⟩]; rfl

/-- CLEAR appends its trace, whatever the state. -/
theorem clearTransition_pending (s : State) :
    (clearTransition s).pending = s.pending ++ clearTrace s.colon s.brightness := by
  simp [clearTransition, bitTransition_pending, clearTrace, bitTrace]

/-- CLEAR keeps the canonical form. -/
theorem clearTransition_wf (s : State) (h : Memory.wf s.mem = true) : Memory.wf (clearTransition s).mem = true :=
  bitTransition_wf _ _ _ (bitTransition_wf _ _ _ (bitTransition_wf _ _ _ (bitTransition_wf _ _ _ h)))

/-- After a CLEAR every slot reads BLANK. -/
theorem clearTransition_read (s : State) (a : Nat) (ha : a < slotCount) :
    Memory.read (clearTransition s).mem a = unlisted := by
  unfold clearTransition
  rw [bitTransition_blank_mem _ (by decide), bitTransition_blank_mem _ (by decide),
    bitTransition_blank_mem _ (by decide), bitTransition_blank_mem _ (by decide)]
  unfold slotCount at ha
  simp only [Memory.read_write, BitVec.toNat_ofNat]
  have : a = 0 ∨ a = 1 ∨ a = 2 ∨ a = 3 := by omega
  rcases this with rfl | rfl | rfl | rfl <;> simp

/-! ## The reset sequence -/

@[simp] theorem resetSequence_brightness (s : State) : (resetSequence s).brightness = 7#32 := by simp [resetSequence]
@[simp] theorem resetSequence_colon (s : State) : (resetSequence s).colon = false := by simp [resetSequence]
@[simp] theorem resetSequence_pins (s : State) : (resetSequence s).pins = ⟨Config.clkInit, Config.dioInit⟩ := by
  simp [resetSequence]
@[simp] theorem resetSequence_pending (s : State) : (resetSequence s).pending = clearTrace false 7#32 := by
  simp [resetSequence, clearTransition_pending]
@[simp] theorem resetSequence_inputs (s : State) : (resetSequence s).inputs = s.inputs := by simp [resetSequence]

/-- A reset keeps the canonical form. -/
theorem resetSequence_wf (s : State) (h : Memory.wf s.mem = true) : Memory.wf (resetSequence s).mem = true :=
  clearTransition_wf _ h

/-- After a reset every slot reads BLANK. -/
theorem resetSequence_read (s : State) (a : Nat) (ha : a < slotCount) :
    Memory.read (resetSequence s).mem a = unlisted :=
  clearTransition_read _ a ha

/-! ## One step -/

/-- Everything a step can do: the reset sequence, one event of a busy block (a presented command being held), the
presented command of an idle block, or nothing but the passing of an idle input. -/
theorem step_cases {s t : State} (h : step s = .next t) :
    (s.input = .reset ∧ t = resetSequence s.popInput) ∨
    (∃ e rest, s.pending = e :: rest ∧ (s.input = .idle ∧ t = s.performNext.popInput ∨
      (∃ w, s.input = .present w) ∧ t = s.performNext)) ∨
    (∃ w, s.pending = [] ∧ s.input = .present w ∧ exec (decode w) s.popInput = .next t) ∨
    (s.pending = [] ∧ s.input = .idle ∧ t = s.popInput) := by
  unfold step at h
  split at h
  · rename_i hi; cases h; exact .inl ⟨hi, rfl⟩
  · rename_i w hi
    split at h
    · rename_i hb
      cases h
      obtain ⟨e, rest, he⟩ := List.exists_cons_of_ne_nil (s.busy_eq_true.1 hb)
      exact .inr (.inl ⟨e, rest, he, .inr ⟨⟨w, hi⟩, rfl⟩⟩)
    · rename_i hb
      exact .inr (.inr (.inl ⟨w, s.busy_eq_false.1 (by simpa using hb), hi, h⟩))
  · rename_i hi
    cases h
    cases hp : s.pending with
    | nil => exact .inr (.inr (.inr ⟨rfl, hi, by rw [s.performNext_nil hp]⟩))
    | cons e rest => exact .inr (.inl ⟨e, rest, rfl, .inl ⟨hi, rfl⟩⟩)

end Sys2Proof.Machine
end

