-- ==== Sys2Proof/Laws/PerInstr.lean ====
section
/-! SUPPORT. A fact about every instruction as syntax: the encoding of a well-formed one fits its format's width and
matches its row's match and mask in spec/opcode_table.json. -/

namespace Sys2Proof.Laws

namespace RowPattern

/-- The row's (match, mask) test on an encoding; rows RESERVED and wire:SEG have no pattern of their own. -/
def matchesRow : Instr → Encoded → Prop
  | .showNum _ _, .cmd48 w => w &&& 0x00000000FFF7#48 = 0x000000000001#48
  | .set _, .cmd48 w => w &&& 0x00000000FFFF#48 = 0x000000000002#48
  | .bit _ _, .cmd48 w => w &&& 0x0000000000FF#48 = 0x000000000003#48
  | .point _, .cmd48 w => w &&& 0xFFFFFFFFFFF7#48 = 0x000000000004#48
  | .clear, .cmd48 w => w &&& 0xFFFFFFFFFFFF#48 = 0x000000000005#48
  | .reserved _, .cmd48 _ => True
  | .wireMode, .wire8 b => b &&& 0xFF#8 = 0x44#8
  | .wireAddr _, .wire8 b => b &&& 0xFC#8 = 0xC0#8
  | .wireSeg _, .wire8 _ => True
  | .wireDispctrl _, .wire8 b => b &&& 0xF8#8 = 0x88#8
  | _, _ => False

def Statement (i : Instr) : Prop :=
  i.wellFormed = true → matchesRow i (encode i) ∧ (encode i).toNat < 2 ^ (encode i).nbits

theorem cmd_fits (w : CmdWord) : (Encoded.cmd48 w).toNat < 2 ^ (Encoded.cmd48 w).nbits := w.isLt
theorem wire_fits (b : Byte) : (Encoded.wire8 b).toNat < 2 ^ (Encoded.wire8 b).nbits := b.isLt

/-- A pattern on an encoded command holds when it holds field by field. -/
theorem cmdWord_matches (v v' mv : Word) (a a' ma : Addr) (f f' mf : BitVec 1) (o o' mo : BitVec 3)
    (hv : v &&& mv = v') (ha : a &&& ma = a') (hf : f &&& mf = f') (ho : o &&& mo = o') :
    cmdWord v a f o &&& (mv ++ ma ++ 0xF#4 ++ mf ++ mo) = (v' ++ a' ++ 0#4 ++ f' ++ o') := by
  rw [word_and_eq_iff]
  simp [hv, ha, hf, ho]

theorem showNum (v : Word) (z : Bool) : Statement (.showNum v z) := fun _ =>
  ⟨cmdWord_matches v 0#32 0#32 0#8 0#8 0xFF#8 (flagBits z) 0#1 0#1 1#3 1#3 7#3 (by simp) rfl (by simp) rfl,
    cmd_fits _⟩

theorem set (l : Word) : Statement (.set l) := fun _ =>
  ⟨cmdWord_matches l 0#32 0#32 0#8 0#8 0xFF#8 0#1 0#1 1#1 2#3 2#3 7#3 (by simp) rfl rfl rfl, cmd_fits _⟩

theorem bit (v : Word) (a : Addr) : Statement (.bit v a) := fun _ =>
  ⟨cmdWord_matches v 0#32 0#32 a 0#8 0#8 0#1 0#1 1#1 3#3 3#3 7#3 (by simp) (by simp) rfl rfl, cmd_fits _⟩

theorem point (e : Bool) : Statement (.point e) := fun _ =>
  ⟨cmdWord_matches 0#32 0#32 0xFFFFFFFF#32 0#8 0#8 0xFF#8 (flagBits e) 0#1 0#1 4#3 4#3 7#3 rfl rfl (by simp) rfl,
    cmd_fits _⟩

theorem clear : Statement .clear := fun _ => ⟨rfl, cmd_fits _⟩

theorem reserved (w : CmdWord) : Statement (.reserved w) := fun _ => ⟨trivial, cmd_fits _⟩

theorem wireMode : Statement .wireMode := fun _ => ⟨rfl, wire_fits _⟩

theorem wireAddr (a : Addr) : Statement (.wireAddr a) := by
  intro h
  refine ⟨?_, wire_fits _⟩
  have hall : ∀ b : Addr, decide (b ≤ 3#8) = true → addrByte b &&& 0xFC#8 = 0xC0#8 := by decide
  exact hall a h

theorem wireSeg (s : Byte) : Statement (.wireSeg s) := fun _ => ⟨trivial, wire_fits _⟩

theorem wireDispctrl (l : Word) : Statement (.wireDispctrl l) := by
  intro h
  refine ⟨?_, wire_fits _⟩
  have hlt : l.toNat < 8 := by
    simp only [Instr.wellFormed, decide_eq_true_eq, BitVec.le_def, BitVec.toNat_ofNat] at h
    omega
  obtain ⟨n, hn, rfl⟩ : ∃ n, n < 8 ∧ l = BitVec.ofNat 32 n := ⟨l.toNat, hlt, by simp⟩
  have hall : ∀ k, k < 8 → dispctrlByte (BitVec.ofNat 32 k) &&& 0xF8#8 = 0x88#8 := by decide
  exact hall n hn

end RowPattern

end Sys2Proof.Laws
end

