-- ==== Sys2Proof/Laws/Run.lean ====
section
/-! SUPPORT. Runs of several steps: one more step, and one run after another. -/

namespace Sys2Proof.Machine

/-- The first step of a run. -/
theorem run_succ_of_step {s t : State} (n : Nat) (h : step s = .next t) :
    Host.Core.run Sys2Proof.core (n + 1) s = Host.Core.run Sys2Proof.core n t := by
  have h' : Sys2Proof.core.step s = .next t := h
  simp only [Host.Core.run, h']

theorem pinsAlong_succ_of_step {s t : State} (n : Nat) (h : step s = .next t) :
    pinsAlong (n + 1) s = t.pins :: pinsAlong n t := by
  rw [pinsAlong, h]

/-- A run of `m + n` steps is a run of `n` steps after one of `m`, and so are the levels seen. -/
theorem run_add {m : Nat} (n : Nat) {s t : State} (h : Host.Core.run Sys2Proof.core m s = .next t) :
    Host.Core.run Sys2Proof.core (m + n) s = Host.Core.run Sys2Proof.core n t ∧
      pinsAlong (m + n) s = pinsAlong m s ++ pinsAlong n t := by
  induction m generalizing s with
  | zero => cases h; simp [pinsAlong]
  | succ m ih =>
    have hcore : Sys2Proof.core.step s = step s := rfl
    cases hs : step s with
    | fault r => cases r
    | refused r => simp only [Host.Core.run, hcore, hs] at h; cases h
    | next u =>
      rw [run_succ_of_step m hs] at h
      have := ih h
      rw [show m + 1 + n = (m + n) + 1 by omega, run_succ_of_step _ hs, pinsAlong_succ_of_step _ hs,
        pinsAlong_succ_of_step _ hs, this.1, this.2]
      exact ⟨rfl, rfl⟩

/-- The step of a busy block whose host presents nothing more (R165). -/
theorem step_of_pending {s : State} {e rest} (hp : s.pending = e :: rest) (hi : s.inputs = []) :
    step s = .next { s with pins := s.pins.write e, pending := rest } := by
  simp [step, State.input, hi, State.popInput, s.performNext_cons hp]

end Sys2Proof.Machine
end

