-- ==== Sys2Proof/Tests/Slice0.lean ====
section
/-! SUPPORT. The model's own tests. Expected values come from the spec's tables and vectors (95_test_vectors.md, cited
by section), words are written out from 30_encoding.md R56 to R60, and the witnesses meet the hypotheses of the
statements. -/

namespace Sys2Proof.Tests

open Sys2Proof.Machine

/-! ## Helpers -/

/-- An idle block with both pins high, the host presenting `ins`. -/
def idleState (m : Memory) (b : Word) (c : Bool) (ins : List Input) : State :=
  { mem := m, brightness := b, colon := c, pins := ⟨true, true⟩, pending := [], inputs := ins }

/-- Reset state as 95_test_vectors.md defines it: buffer all BLANK, brightness 7, colon 0, CLK = DIO = 1. -/
def fresh : State := idleState [] 7#32 false []

/-- After `SHOW 42`: buffer [BLANK, BLANK, 4, 2] (section 8). -/
def fortyTwo : State := idleState [(2, 4#8), (3, 2#8)] 7#32 false []

/-- After `SHOW 1234` with the colon on. -/
def colonOn : State := idleState [(0, 1#8), (1, 2#8), (2, 3#8), (3, 4#8)] 7#32 true []

/-- A block in the middle of a command. -/
def busyState (ins : List Input) : State :=
  { mem := [], brightness := 7#32, colon := false, pins := ⟨true, true⟩, pending := stopTrace, inputs := ins }

/-- The state a meaning leaves. -/
def after (i : Instr) (s : State) : State :=
  match exec i s with
  | .next t => t
  | .fault _ | .refused _ => s

/-- The frames a receiver gets from a state's pending events. -/
def sent (s : State) : List (List Byte) := (Receiver.watch .start s.pins (s.pins.levels s.pending)).frames

/-! ## WellFormed refuses an ill-formed term for each of its checks -/

theorem test_wf_refuses_a_command_as_reserved : (Instr.reserved 0x000000000005#48).wellFormed = false := by decide
theorem test_wf_refuses_wire_address_four : (Instr.wireAddr 4#8).wellFormed = false := by decide
theorem test_wf_refuses_no_segment_byte : (Instr.wireSeg 0x44#8).wellFormed = false := by decide
theorem test_wf_refuses_wire_level_eight : (Instr.wireDispctrl 8#32).wellFormed = false := by decide
/-- R59: OP 0, 6 and 7, R = 1, and an unused field not 0, each for each command (section 5). -/
theorem test_wf_reserved_words :
    [0x000000000000#48, 0x000000000006#48, 0x000000000007#48, 0x000000000013#48, 0x000000000016#48, 0x0000002A0109#48,
     0x00000003000A#48, 0x000000000102#48, 0x00000005020B#48, 0x000000010004#48, 0x000000000104#48, 0x00000000000D#48,
     0x000000000105#48, 0x000000010005#48].all (fun w => (Instr.reserved w).wellFormed) = true := by decide

/-! ## Decoding, words written out from the fields V, A, R, F, OP of R56 -/

/-- SHOW 42, 1: V = 42, A = 0, R = 0, F = 1, OP = 001. -/
theorem test_decode_show : decode (42#32 ++ 0#8 ++ 0#4 ++ 0b1#1 ++ 0b001#3) = .showNum 42#32 true := by decide
/-- SET 3: V = 3, OP = 010 (section 5: 0x000000030002). -/
theorem test_decode_set : decode 0x000000030002#48 = .set 3#32 := by decide
/-- BIT 5, 2: V = 5, A = 2, OP = 011 (section 5: 0x000000050203). -/
theorem test_decode_bit : decode 0x000000050203#48 = .bit 5#32 2#8 := by decide
/-- POINT 1: F = 1, OP = 100, that is 0b1100 (section 5: 0x00000000000C). -/
theorem test_decode_point : decode 0b1100#48 = .point true := by decide
/-- CLEAR: OP = 101 (section 5). -/
theorem test_decode_clear : decode 0b101#48 = .clear := by decide
/-- SHOW with A = 1 is RESERVED (section 5: 0x0000002A0109). -/
theorem test_decode_reserved : decode 0x0000002A0109#48 = .reserved 0x0000002A0109#48 := by decide
/-- Program P2's words (section 9). -/
theorem test_decode_p2 :
    [0x000000070009#48, 0x000000050403#48, 0x0000007F0303#48, 0x000000080002#48].map decode =
      [.showNum 7#32 true, .bit 5#32 4#8, .bit blank 3#8, .set 8#32] := by decide
/-- R62 to R65 and the wire rows of the opcode table. -/
theorem test_decode_wire :
    decodeTableWord 8 0b01000100 = some .wireMode ∧ decodeTableWord 8 0b11000011 = some (.wireAddr 3#8) ∧
    decodeTableWord 8 0x66 = some (.wireSeg 0x66#8) ∧ decodeTableWord 8 0b10001101 = some (.wireDispctrl 5#32) := by
  decide
/-- A row's word may be given with the operand bits left out: 8 bits of BIT, 16 of SHOW and SET. -/
theorem test_decode_short_rows :
    decodeTableWord 8 3 = some (.bit 0#32 0#8) ∧ decodeTableWord 16 1 = some (.showNum 0#32 false) ∧
    decodeTableWord 16 2 = some (.set 0#32) ∧ decodeTableWord 48 4 = some (.point false) ∧
    decodeTableWord 48 5 = some .clear ∧ decodeTableWord 49 5 = none := by decide
/-- Program P4's `SET 0xFFFFFFFF`, encoded (section 9). -/
theorem test_encode_set : encode (.set 0xFFFFFFFF#32) = .cmd48 0xFFFFFFFF0002#48 := by decide

/-! ## The engine, the encoder and the gate (sections 2, 3, 6) -/

/-- WRITEBYTE(0x5B), section 3. -/
theorem test_writeByte_5B :
    writeByteTrace 0x5B#8 =
      bitSlot true ++ bitSlot true ++ bitSlot false ++ bitSlot true ++ bitSlot true ++ bitSlot false ++ bitSlot true ++
        bitSlot false ++ [clkWrite false, dioWrite true, clkWrite true] := by decide
/-- Colon merge, section 2. -/
theorem test_segByte :
    segByte 2#32 1#8 true = 0xDB#8 ∧ segByte 2#32 2#8 true = 0x5B#8 ∧ segByte 0x7F#32 1#8 true = 0x80#8 ∧
    segByte 0x3F#32 1#8 true = 0xBF#8 ∧ segByte 0x3F#32 0x41#8 true = 0x3F#8 := by decide
/-- The gate, section 6. -/
theorem test_accept :
    [(9#32, 3#8), (0x7F#32, 4#8), (0x3F#32, 255#8)].all (fun x => accept x.1 x.2) = true ∧
    [(9#32, 4#8), (10#32, 0#8), (15#32, 2#8), (3#32, 0x41#8), (0x13F#32, 0#8), (0x17F#32, 1#8), (0xFFFFFFFF#32, 0#8)].all
      (fun x => !accept x.1 x.2) = true := by decide

/-! ## The commands (sections 6, 7, 8) -/

/-- `BIT 9, 3` stores 9. -/
theorem test_bit_stores : (after (.bit 9#32 3#8) fresh).slots = [0x7F#8, 0x7F#8, 0x7F#8, 9#8] := by decide
/-- `BIT 0x3F, 0x41` sends [44] [C1 3F] [8F] and stores nothing, the colon being on. -/
theorem test_bit_beyond : sent (after (.bit 0x3F#32 0x41#8) colonOn) = [[0x44#8], [0xC1#8, 0x3F#8], [0x8F#8]] ∧
    (after (.bit 0x3F#32 0x41#8) colonOn).mem = colonOn.mem := by decide +kernel
/-- `SHOW 105, 1` leaves [ZFILL, 1, 0, 5]. -/
theorem test_show_band : (after (.showNum 105#32 true) fresh).slots = [0x3F#8, 1#8, 0#8, 5#8] := by decide
/-- `SHOW 4294967295` leaves [7, 2, 9, 5] and sends positions 3, 2, 1, 0. -/
theorem test_show_largest :
    (after (.showNum 0xFFFFFFFF#32 false) fresh).slots = [7#8, 2#8, 9#8, 5#8] ∧
    sent (after (.showNum 0xFFFFFFFF#32 false) fresh) =
      [[0x44#8], [0xC3#8, 0x6D#8], [0x8F#8], [0x44#8], [0xC2#8, 0x6F#8], [0x8F#8],
       [0x44#8], [0xC1#8, 0x5B#8], [0x8F#8], [0x44#8], [0xC0#8, 0x07#8], [0x8F#8]] := by decide +kernel
/-- `SET 8` after `SHOW 42`. -/
theorem test_set_out_of_range :
    (after (.set 8#32) fortyTwo).brightness = 8#32 ∧
    sent (after (.set 8#32) fortyTwo) =
      [[0x44#8], [0xC0#8, 0x00#8], [0x90#8], [0x44#8], [0xC1#8, 0x00#8], [0x90#8],
       [0x44#8], [0xC2#8, 0x66#8], [0x90#8], [0x44#8], [0xC3#8, 0x5B#8], [0x90#8]] := by decide +kernel
/-- `POINT 1` after `SHOW 1234` sends [44] [C1 DB] [8F] (S10). -/
theorem test_point : sent (after (.point true) colonOn) = [[0x44#8], [0xC1#8, 0xDB#8], [0x8F#8]] ∧
    (after (.point false) colonOn).colon = false := by decide +kernel
/-- `CLEAR` with the colon on sends 0x80 at address 1 and leaves the colon (section 8). -/
theorem test_clear :
    (after .clear colonOn).slots = [0x7F#8, 0x7F#8, 0x7F#8, 0x7F#8] ∧ (after .clear colonOn).colon = true ∧
    sent (after .clear colonOn) =
      [[0x44#8], [0xC0#8, 0x00#8], [0x8F#8], [0x44#8], [0xC1#8, 0x80#8], [0x8F#8],
       [0x44#8], [0xC2#8, 0x00#8], [0x8F#8], [0x44#8], [0xC3#8, 0x00#8], [0x8F#8]] := by decide +kernel

/-! ## Reset (section 1, S4) and the placing of a word -/

/-- The reset's CLEAR is 528 events, after which both pins are high. -/
theorem test_reset_pending :
    State.reset.pending.length = 528 ∧ Pins.writeAll ⟨false, false⟩ State.reset.pending = ⟨true, true⟩ := by
  decide +kernel
/-- A word placed after reset is what the next step runs: `SET 3` sets brightness 3. -/
theorem test_fetch_set :
    (match step (State.reset.withFetchWord 48 0x000000030002) with
      | .next t => t.brightness
      | .fault _ | .refused _ => 0#32) = 3#32 := by decide
/-- A wire row placed after reset is performed by the next step: MODE's first event, CLK high. -/
theorem test_fetch_wire :
    (match step (State.reset.withFetchWord 8 0x44) with
      | .next t => t.pending.length
      | .fault _ | .refused _ => 0) = 34 := by decide +kernel
/-- A word the host must not present is refused by name. -/
theorem test_fetch_reserved : step (State.reset.withFetchWord 48 6) = .refused (.reservedWord 6#48) := rfl

/-! ## Witnesses: each meets the hypotheses of the statement it names -/

theorem idle_inv {m : Memory} {b : Word} {c : Bool} {ins : List Input} (hw : Memory.wf m = true)
    (hl : Memory.legal m = true) : (idleState m b c ins).Inv :=
  ⟨hw, hl, ⟨[], List.suffix_refl _⟩, rfl⟩

/-- DecodeOfEncodeIsTheInstruction, at the ends of the checked ranges. -/
theorem witness_wellFormed :
    [Instr.showNum 0#32 true, .set 0xFFFFFFFF#32, .bit 0x7F#32 255#8, .point true, .clear, .reserved 0#48, .wireMode,
     .wireAddr 3#8, .wireSeg 0xBF#8, .wireDispctrl 7#32].all Instr.wellFormed = true := by decide
/-- ReservedWordsAreRefused: a reserved word presented to an idle block. -/
theorem witness_reserved : reservedWord 7#48 = true ∧ (idleState [] 7#32 false [.present 7#48]).pending = [] ∧
    (idleState [] 7#32 false [.present 7#48]).inputs = .present 7#48 :: [] := by decide
/-- WireBytesOfModeAddrDispctrl: the bounds of both ranges. -/
theorem witness_wire_bytes : (3#8).toNat ≤ 3 ∧ (7#32).toNat ≤ 7 := by decide
/-- DecodeIsMatchAndMask, last clause: a word that matches no row. -/
theorem witness_no_row :
    (8#48 &&& 0x00000000FFF7#48 ≠ 1#48) ∧ (8#48 &&& 0x00000000FFFF#48 ≠ 2#48) ∧ (8#48 &&& 0x0000000000FF#48 ≠ 3#48) ∧
    (8#48 &&& 0xFFFFFFFFFFF7#48 ≠ 4#48) ∧ (8#48 &&& 0xFFFFFFFFFFFF#48 ≠ 5#48) := by decide
/-- ColonBitOnlyAtAddressOne, AcceptedBitWritesOneDigit and ShowRedundantStoreIsHarmless: a digit and a sentinel at the
last address of each. -/
theorem witness_accept : accept 9#32 3#8 = true ∧ accept 0#32 1#8 = true ∧ accept 0x7F#32 255#8 = true := by decide
/-- MemWriteOfOneSlot: both sides of the bound. -/
theorem witness_slots : (3#8).toNat ≤ 3 ∧ 4 ≤ (4#8).toNat := by decide
/-- RejectedBitIsSilent: the word of `BIT 9, 4` presented to an idle block, the host idle after it. -/
theorem witness_reject : accept 9#32 4#8 = false ∧ decode 0x000000090403#48 = .bit 9#32 4#8 ∧
    (idleState [] 7#32 false [.present 0x000000090403#48]).pending = [] ∧
    ([] : List Input).head? ≠ some .reset := by decide
/-- ShowTruncatesToFourDigits and ZeroFilledShowRendersFourDigits: the bounds, and a next state. -/
theorem witness_show : 1000 ≤ (1000#32).toNat ∧ (9999#32).toNat < 10000 ∧
    exec (.showNum 1000#32 true) fresh = .next (after (.showNum 1000#32 true) fresh) ∧
    exec (.showNum 9999#32 true) fresh = .next (after (.showNum 9999#32 true) fresh) := ⟨by decide, by decide, rfl, rfl⟩
/-- SetStoresLevelAndResendsAll, PointStoresFlagAndResendsSlotOne, CommandsAreIdempotentOnRegisters,
EventCountsOfCommands: a buffer with digits. -/
theorem witness_legal : Memory.wf fortyTwo.mem = true ∧ Memory.legal fortyTwo.mem = true ∧ fortyTwo.pending = [] ∧
    (Instr.set 3#32).isCommand = true ∧ exec (.set 3#32) fortyTwo = .next (after (.set 3#32) fortyTwo) ∧
    exec (.showNum 42#32 true) fortyTwo = .next (after (.showNum 42#32 true) fortyTwo) ∧
    exec (.bit 9#32 3#8) fortyTwo = .next (after (.bit 9#32 3#8) fortyTwo) ∧
    exec (.point true) fortyTwo = .next (after (.point true) fortyTwo) ∧
    exec .clear fortyTwo = .next (after .clear fortyTwo) :=
  ⟨rfl, by decide, rfl, rfl, rfl, rfl, rfl, rfl, rfl⟩
/-- StepRunsThePresentedCommand. -/
theorem witness_step : (idleState [] 7#32 false [.present 5#48]).pending = [] ∧
    (idleState [] 7#32 false [.present 5#48]).inputs = .present 5#48 :: [] := by decide
/-- BusyStepPerformsTheFirstEvent and HostLinesDoNotDisturbACommand: a busy block, its host idle or holding a command. -/
theorem witness_busy : (busyState [.present 5#48]).pending = clkWrite false :: stopTrace.tail ∧
    (busyState [.present 5#48]).rst = false ∧ (busyState [.present 5#48]).inputs = .present 5#48 :: [] ∧
    (busyState [.idle]).inputs = .idle :: [] ∧ (busyState []).pending ≠ [] ∧
    [Input.present 5#48].head? ≠ some .reset := by decide
/-- IdleStepChangesNothing: both forms of an idle host. -/
theorem witness_idle : (idleState [] 7#32 true [.idle]).inputs = .idle :: [] ∧ fresh.inputs = [] ∧
    fresh.pending = [] := by decide
/-- ReadyAndStatusPort: a ready block, a busy one and one in reset. -/
theorem witness_ready : fresh.cmdReady = true ∧ (busyState []).cmdReady = false ∧
    (idleState [] 7#32 false [.reset]).cmdReady = false := by decide
/-- FetchedWireByteIsPerformed. -/
theorem witness_wire_row : decodeTableWord 8 (0xC1#8).toNat = some (.wireAddr 1#8) ∧
    (Instr.wireAddr 1#8).isWire = true := by decide
/-- ResetCompletesAfter528Steps, second clause. -/
theorem witness_before_528 : 527 < 528 := by decide
/-- R30, R162: a reset in the middle of a frame leaves `CLK_INIT` and `DIO_INIT` on the pins. -/
theorem test_reset_levels :
    (match step { fortyTwo with pins := ⟨false, false⟩, pending := stopTrace, inputs := [.reset] } with
      | .next t => t.pins = ⟨Config.clkInit, Config.dioInit⟩ | _ => False) := rfl
/-- ResetStepFromAnyState: a busy block with a digit in its buffer is reset. -/
theorem witness_reset : Memory.wf fortyTwo.mem = true ∧
    ({ fortyTwo with pending := stopTrace, inputs := [.reset] } : State).inputs = .reset :: [] := by decide
/-- EveryStepKeepsTheInvariant: a state of the invariant that takes a step. -/
theorem witness_inv : (idleState [(1, 2#8)] 7#32 true [.present 5#48]).Inv ∧
    step (idleState [(1, 2#8)] 7#32 true [.present 5#48]) =
      .next (after .clear (idleState [(1, 2#8)] 7#32 true [])) :=
  ⟨idle_inv rfl (by decide), rfl⟩
/-- BlockNeverStops: a host that presents a command, resets, and presents another. -/
theorem witness_hostLegal : (idleState [] 7#32 false [.present 5#48, .reset, .present 12#48]).hostLegal := by
  intro w hw
  simp only [idleState, List.mem_cons, Input.present.injEq, reduceCtorEq, List.not_mem_nil, false_or, or_false] at hw
  rcases hw with rfl | rfl <;> decide
/-- PendingEventsAreAllPerformed. -/
theorem witness_pending : (busyState []).inputs = [] ∧ (busyState []).pending.length = 4 := by decide
/-- OnlySetAndPointWriteTheirRegisters: steps that change each register, and one of a busy block. -/
theorem witness_writes :
    (∃ t, step (idleState [] 7#32 false [.present 0x000000030002#48]) = .next t ∧ t.brightness ≠ 7#32) ∧
    (∃ t, step (idleState [] 7#32 false [.present 0x00000000000C#48]) = .next t ∧ t.colon ≠ false) ∧
    (∃ t, step (busyState []) = .next t) ∧ (busyState []).pending ≠ [] ∧
    (idleState [] 7#32 false [.present 0x000000030002#48]).rst = false ∧
    (idleState [] 7#32 false [.present 0x00000000000C#48]).rst = false ∧ (busyState []).rst = false :=
  ⟨⟨_, rfl, by decide⟩, ⟨_, rfl, by decide⟩, ⟨_, rfl⟩, by decide, by decide, by decide, by decide⟩
/-- ColonDoesNotReachOtherAddresses. -/
theorem witness_colon : (2#8 : Addr) ≠ 1#8 ∧ exec (.bit 5#32 2#8) colonOn = .next (after (.bit 5#32 2#8) colonOn) :=
  ⟨by decide, rfl⟩
/-- CommandReachesTheReceiver: `SHOW 42` presented to an idle block that shows 1234 with the colon on. -/
theorem witness_command :
    (Instr.showNum 42#32 false).isCommand = true ∧ encode (.showNum 42#32 false) = .cmd48 0x0000002A0001#48 ∧
    ({ colonOn with inputs := [.present 0x0000002A0001#48] } : State).Inv ∧ colonOn.pending = [] :=
  ⟨rfl, by decide, idle_inv (ins := [.present 0x0000002A0001#48]) rfl (by decide), rfl⟩

end Sys2Proof.Tests
end

/-! PROOFS of the statements about the state (10_state.md). First the meanings as equations, one lemma for each row of
`exec`, with SHOW reduced to the BIT transition; then what each statement needs, and the statement itself. -/

namespace Sys2Proof.Machine

/-! ## The meanings, row by row -/

@[simp] theorem exec_set (l : Word) (s : State) :
    exec (.set l) s = .next (resend 3 (resend 2 (resend 1 (resend 0 { s with brightness := l })))) := rfl

@[simp] theorem exec_bit (v : Word) (a : Addr) (s : State) : exec (.bit v a) s = .next (bitTransition v a s) := rfl

@[simp] theorem exec_point (e : Bool) (s : State) :
    exec (.point e) s = .next (resend 1 { s with colon := e }) := rfl

@[simp] theorem exec_clear (s : State) : exec .clear s = .next (clearTransition s) := rfl

@[simp] theorem exec_reserved (w : CmdWord) (s : State) : exec (.reserved w) s = .refused (.reservedWord w) := rfl

/-- A wire row appends its events and does nothing else (R91 to R93). -/
theorem exec_of_isWire {i : Instr} (s : State) (h : i.isWire = true) : exec i s = .next (s.emit (wireTrace i)) := by
  cases i with
  | showNum | set | bit | point | clear | reserved => cases h
  | wireMode | wireAddr | wireSeg | wireDispctrl => rfl

/-- The decoder answers no wire row (R60). -/
theorem decode_isWire (w : CmdWord) : (decode w).isWire = false := by
  rcases decode_cases w with ⟨_, _, _, h⟩ | ⟨_, _, _, _, h⟩ | ⟨_, _, _, h⟩ | ⟨_, _, _, _, h⟩ |
    ⟨_, _, _, _, _, h⟩ | ⟨_, h⟩ <;> rw [h] <;> rfl

/-! ## SHOW as four BITs (R120, R124) -/

/-- The value of an accepted BIT stored once more changes nothing. -/
theorem memWrite_bitTransition {v : Word} {a : Addr} (s : State) (h : accept v a = true) :
    (bitTransition v a s).memWrite a v = bitTransition v a s := by
  by_cases ha : a ≤ 3#8
  · refine State.ext_fields ?_ (by simp) (by simp) (by simp) (by simp) (by simp)
    rw [State.memWrite_mem_of_le _ _ ha, bitTransition_mem, if_pos ⟨h, ha⟩, Memory.write_write]
  · exact State.memWrite_of_not_le _ _ ha

theorem showPosition_of_accept {p : Word} {a : Addr} (s : State) (h : accept p a = true) :
    showPosition p a s = bitTransition p a s :=
  memWrite_bitTransition s h

/-- A digit is accepted at a slot's address (R111). -/
theorem accept_of_lt_ten {v : Word} {a : Addr} (hv : v < 10#32) (ha : a ≤ 3#8) : accept v a = true := by
  have hle : v ≤ 9#32 := by bv_omega
  simp [accept, hle, ha]

theorem accept_mod_ten (v : Word) {a : Addr} (ha : a ≤ 3#8) : accept (v % 10#32) a = true :=
  accept_of_lt_ten (BitVec.umod_lt v (by decide)) ha

@[simp] theorem accept_padding (z : Bool) (a : Addr) : accept (padding z) a = true := by cases z <;> rfl

/-- Whatever the number's band, SHOW sends a digit or the padding, and each is accepted at a slot's address (R121). -/
theorem accept_showDigits (v : Word) (z : Bool) {a : Addr} (ha : a ≤ 3#8) :
    accept (showDigits v z).p3 a = true ∧ accept (showDigits v z).p2 a = true ∧
      accept (showDigits v z).p1 a = true ∧ accept (showDigits v z).p0 a = true := by
  unfold showDigits
  split_ifs <;> simp [accept_mod_ten, accept_of_lt_ten, *]

/-- SHOW is the four BITs of its digits at positions 3, 2, 1, 0. -/
@[simp] theorem exec_showNum (v : Word) (z : Bool) (s : State) :
    exec (.showNum v z) s =
      .next (bitTransition (showDigits v z).p0 0#8 (bitTransition (showDigits v z).p1 1#8
        (bitTransition (showDigits v z).p2 2#8 (bitTransition (showDigits v z).p3 3#8 s)))) := by
  obtain ⟨-, -, -, h0⟩ := accept_showDigits v z (a := 0#8) (by decide)
  obtain ⟨-, -, h1, -⟩ := accept_showDigits v z (a := 1#8) (by decide)
  obtain ⟨-, h2, -, -⟩ := accept_showDigits v z (a := 2#8) (by decide)
  obtain ⟨h3, -, -, -⟩ := accept_showDigits v z (a := 3#8) (by decide)
  rw [← showPosition_of_accept _ h0, ← showPosition_of_accept _ h1, ← showPosition_of_accept _ h2,
    ← showPosition_of_accept _ h3]
  rfl

/-! ## The invariant (R36, R61, R95): every operation keeps it -/

/-- Another digit write after what is pending. -/
theorem onlyDigitWrites_append {s t : State} (a : Addr) (b : Byte) (l : Word) (h : s.onlyDigitWrites)
    (ht : t.pending = s.pending ++ digitWrite a b l) : t.onlyDigitWrites := by
  obtain ⟨ws, hws⟩ := h
  refine ⟨ws ++ [⟨a, b, l⟩], ?_⟩
  have hone : digitWritesTrace [⟨a, b, l⟩] = digitWrite a b l := by simp [digitWritesTrace]
  rw [ht, digitWritesTrace_append, hone]
  obtain ⟨before, hb⟩ := hws
  exact ⟨before, by rw [← hb, List.append_assoc]⟩

/-- An accepted BIT establishes the pins' part of the invariant, whatever the levels before it: its digit write ends in
a STOP (R81). -/
theorem bitTransition_inv_of_accept {v : Word} {a : Addr} {s : State} (hacc : accept v a = true)
    (hw : Memory.wf s.mem = true) (hl : Memory.legal s.mem = true) (hd : s.onlyDigitWrites) :
    (bitTransition v a s).Inv := by
  have hp : (bitTransition v a s).pending = s.pending ++ digitWrite a (segByte v a s.colon) s.brightness := by
    rw [bitTransition_pending, if_pos hacc]
  exact {
    memWf := bitTransition_wf v a s hw
    legal := bitTransition_legal v a s hl
    digits := onlyDigitWrites_append _ _ _ hd hp
    drained := by rw [hp, Pins.writeAll_append, Pins.writeAll_digitWrite] }

theorem bitTransition_inv (v : Word) (a : Addr) {s : State} (h : s.Inv) : (bitTransition v a s).Inv := by
  by_cases hacc : accept v a = true
  · exact bitTransition_inv_of_accept hacc h.memWf h.legal h.digits
  · rwa [bitTransition_of_reject s (by simpa using hacc)]

theorem resend_inv (a : Fin 4) {s : State} (h : s.Inv) : (resend a s).Inv := bitTransition_inv _ _ h

/-- CLEAR's digit writes establish the pins' part of the invariant, as the reset needs it (R162). -/
theorem clearTransition_inv {s : State} (hw : Memory.wf s.mem = true) (hl : Memory.legal s.mem = true)
    (hd : s.onlyDigitWrites) : (clearTransition s).Inv :=
  bitTransition_inv _ _ (bitTransition_inv _ _ (bitTransition_inv _ _
    (bitTransition_inv_of_accept (accept_blank _) hw hl hd)))

/-- A reset discards what is pending and starts a CLEAR (R161, R163). -/
theorem resetSequence_inv {s : State} (hw : Memory.wf s.mem = true) (hl : Memory.legal s.mem = true) :
    (resetSequence s).Inv :=
  clearTransition_inv hw hl ⟨[], List.nil_suffix⟩

/-- The invariant speaks of the buffer, the pins and what is pending only. -/
theorem State.Inv.of_fields {s t : State} (h : s.Inv) (hm : t.mem = s.mem) (hp : t.pins = s.pins)
    (he : t.pending = s.pending) : t.Inv where
  memWf := hm ▸ h.memWf
  legal := hm ▸ h.legal
  digits := by obtain ⟨ws, hws⟩ := h.digits; exact ⟨ws, he ▸ hws⟩
  drained := by rw [hp, he]; exact h.drained

theorem popInput_inv {s : State} (h : s.Inv) : s.popInput.Inv := h.of_fields rfl rfl rfl

/-- A sequencer step performs the first event of the rest of the digit writes (R165). -/
theorem performNext_inv {s : State} (h : s.Inv) : s.performNext.Inv := by
  cases hp : s.pending with
  | nil => rwa [s.performNext_nil hp]
  | cons e rest =>
    obtain ⟨ws, hws⟩ := h.digits
    have hrest : rest <:+ digitWritesTrace ws := (List.suffix_cons e rest).trans (hp ▸ hws)
    have hdrained := h.drained
    rw [hp, Pins.writeAll_cons] at hdrained
    rw [s.performNext_cons hp]
    exact ⟨h.memWf, h.legal, ⟨ws, hrest⟩, hdrained⟩

/-- Every host command keeps the invariant. -/
theorem exec_inv {i : Instr} {s t : State} (hi : i.isWire = false) (h : s.Inv) (ht : exec i s = .next t) : t.Inv := by
  cases i with
  | showNum v z =>
    rw [exec_showNum] at ht; cases ht
    exact bitTransition_inv _ _ (bitTransition_inv _ _ (bitTransition_inv _ _ (bitTransition_inv _ _ h)))
  | set l =>
    rw [exec_set] at ht; cases ht
    exact resend_inv _ (resend_inv _ (resend_inv _ (resend_inv _ (h.of_fields rfl rfl rfl))))
  | bit v a => rw [exec_bit] at ht; cases ht; exact bitTransition_inv v a h
  | point e => rw [exec_point] at ht; cases ht; exact resend_inv _ (h.of_fields rfl rfl rfl)
  | clear => rw [exec_clear] at ht; cases ht; exact clearTransition_inv h.memWf h.legal h.digits
  | reserved w => rw [exec_reserved] at ht; cases ht
  | wireMode | wireAddr | wireSeg | wireDispctrl => cases hi

/-- Settles O42: a case of the step each for the reset, an event, a command and an idle input. -/
theorem everyStepKeepsTheInvariant : Obligations.EveryStepKeepsTheInvariant := by
  intro s t h hstep
  rcases step_cases hstep with ⟨-, rfl⟩ | ⟨_, _, -, ⟨-, rfl⟩ | ⟨-, rfl⟩⟩ | ⟨w, -, -, hexec⟩ | ⟨-, -, rfl⟩
  · exact resetSequence_inv h.memWf h.legal
  · exact popInput_inv (performNext_inv h)
  · exact performNext_inv h
  · exact exec_inv (decode_isWire w) (popInput_inv h) hexec
  · exact popInput_inv h

/-! ## The wire as a receiver sees it (R31) -/

/-- The levels after the event with index `n` are those of the first `n + 1` events performed. -/
theorem Pins.getElem?_levels (p : Pins) (t : List PinEvent) (n : Nat) (hn : n < t.length) :
    (p.levels t)[n]? = some (p.writeAll (t.take (n + 1))) := by
  induction t generalizing p n with
  | nil => cases hn
  | cons e t ih =>
    cases n with
    | zero => simp
    | succ n => simpa using ih (p.write e) n (by simpa using hn)

/-- A receiver sees nothing in levels that stay the same. -/
@[simp] theorem Receiver.see_self (r : Receiver) (p : Pins) : r.see p p = r := Receiver.watch_replicate r p 1

theorem Receiver.watch_electricalView (r : Receiver) (old : Pins) (ls : List Pins) :
    r.watch old (electricalView old ls) = r.watch old ls := by
  induction ls generalizing r old with
  | nil => rfl
  | cons new rest ih =>
    unfold electricalView
    split
    case isTrue hsame => rw [hsame, ih, Receiver.watch_cons, Receiver.see_self]
    case isFalse => rw [Receiver.watch_cons, Receiver.watch_cons, ih]

/-- Levels that stay the same hold no rising edge. -/
theorem samples_cons_self (p : Pins) (ls : List Pins) : samples p (p :: ls) = samples p ls := by
  simp [samples]

theorem samples_electricalView (old : Pins) (ls : List Pins) :
    samples old (electricalView old ls) = samples old ls := by
  induction ls generalizing old with
  | nil => rfl
  | cons new rest ih =>
    unfold electricalView
    split
    case isTrue hsame => rw [hsame, ih, samples_cons_self]
    case isFalse => rw [samples, samples, ih]

/-- Settles O11, each clause by induction on the trace or its levels. -/
theorem noChangeEventsAreInvisible : Obligations.NoChangeEventsAreInvisible := fun t p r =>
  ⟨p.getElem?_levels t, r.watch_electricalView p _, samples_electricalView p _⟩

/-! ## Who writes `brightness` and `colon` (R23, R24) -/

/-- Of all rows only SET writes `brightness`, with its operand, and only POINT writes `colon`, with its operand. -/
theorem exec_brightness_colon {i : Instr} {s t : State} (h : exec i s = .next t) :
    (t.brightness = s.brightness ∨ i = .set t.brightness) ∧ (t.colon = s.colon ∨ i = .point t.colon) := by
  cases i with
  | showNum v z => rw [exec_showNum] at h; cases h; simp
  | set l => rw [exec_set] at h; cases h; simp
  | bit v a => rw [exec_bit] at h; cases h; simp
  | point e => rw [exec_point] at h; cases h; simp
  | clear => rw [exec_clear] at h; cases h; simp
  | reserved w => rw [exec_reserved] at h; cases h
  | wireMode | wireAddr | wireSeg | wireDispctrl => rw [exec_of_isWire s rfl] at h; cases h; simp

/-- A presented word stands at the head of the inputs. -/
theorem State.inputs_of_present {s : State} {w : CmdWord} (h : s.input = .present w) :
    ∃ rest, s.inputs = .present w :: rest := by
  unfold State.input at h
  cases hi : s.inputs with
  | nil => rw [hi] at h; cases h
  | cons i rest => rw [hi] at h; exact ⟨rest, by rw [← h]; rfl⟩

theorem State.rst_eq_true {s : State} : s.rst = true ↔ s.inputs.head? = some .reset := by
  unfold State.rst State.input
  cases s.inputs <;> simp

/-- Outside reset, a step keeps the registers or accepts the presented command of an idle block (R55). -/
theorem step_registers {s t : State} (h : step s = .next t) (hr : s.rst = false) :
    (t.mem = s.mem ∧ t.brightness = s.brightness ∧ t.colon = s.colon) ∨
    (s.pending = [] ∧ ∃ w rest, s.inputs = .present w :: rest ∧ exec (decode w) s.popInput = .next t) := by
  rcases step_cases h with ⟨hi, -⟩ | ⟨_, _, -, ⟨-, rfl⟩ | ⟨-, rfl⟩⟩ | ⟨w, hp, hi, hexec⟩ | ⟨-, -, rfl⟩
  · simp [State.rst, hi] at hr
  · simp
  · simp
  · obtain ⟨rest, hin⟩ := s.inputs_of_present hi
    exact .inr ⟨hp, w, rest, hin, hexec⟩
  · simp

/-- Settles O45: a step that changes a register accepts a command, and of the commands only SET writes `brightness` and
only POINT writes `colon`. -/
theorem onlySetAndPointWriteTheirRegisters : Obligations.OnlySetAndPointWriteTheirRegisters := by
  intro s t hstep hrst
  rcases step_registers hstep hrst with ⟨hm, hb, hc⟩ | ⟨hp, w, rest, hin, hexec⟩
  · exact ⟨fun h => absurd hb h, fun h => absurd hc h, fun _ => hm⟩
  · obtain ⟨hb, hc⟩ := exec_brightness_colon hexec
    exact ⟨fun h => ⟨hp, w, rest, hin, hb.resolve_left h⟩, fun h => ⟨hp, w, rest, hin, hc.resolve_left h⟩,
      fun h => absurd hp h⟩

/-! ## The colon at other addresses (R24, R103) -/

theorem segByte_of_ne_one (v : Word) {a : Addr} (colon : Bool) (ha : a ≠ 1#8) : segByte v a colon = coding v := by
  simp [segByte, ha]

/-- A BIT at an address other than 1 carries the colon along and does not read it. -/
theorem bitTransition_with_colon (v : Word) {a : Addr} (s : State) (c : Bool) (ha : a ≠ 1#8) :
    bitTransition v a { s with colon := c } = { bitTransition v a s with colon := c } := by
  apply State.ext_fields <;> simp [bitTransition_mem, bitTransition_pending, segByte_of_ne_one _ _ ha]

/-- Settles O46, by the segment byte's not reading the colon. -/
theorem colonDoesNotReachOtherAddresses : Obligations.ColonDoesNotReachOtherAddresses := by
  intro v a s t c ha h
  cases h
  rw [exec_bit, bitTransition_with_colon v s c ha]

/-! ## What the host reads (R32, R34) -/

theorem State.cmdReady_iff (s : State) :
    s.cmdReady = true ↔ s.pending = [] ∧ s.inputs.head? ≠ some .reset := by
  simp [State.cmdReady, State.busy_eq_false, ← State.rst_eq_true]

theorem State.status_of_ready {s : State} (h : s.cmdReady = true) :
    s.status = some ⟨s.memRead 0, s.memRead 1, s.memRead 2, s.memRead 3, s.brightness, s.colon⟩ :=
  if_pos h

theorem State.status_of_not_ready {s : State} (h : s.cmdReady = false) : s.status = none :=
  if_neg (by simp [h])

/-- Settles O35: `cmd_ready` from `pending` and the head of the inputs, the port from `cmd_ready`. -/
theorem readyAndStatusPort : Obligations.ReadyAndStatusPort := fun s =>
  ⟨s.cmdReady_iff, State.status_of_ready, State.status_of_not_ready⟩

end Sys2Proof.Machine

/-! PROOFS of the statements about storage and ordering (20_memory.md): a store of one slot, a command given twice, and
the host's lines while a command is performed. -/

namespace Sys2Proof.Machine

/-! ## One store (R42) -/

theorem State.memRead_memWrite (s : State) {a : Addr} (v : Word) (ha : a ≤ 3#8) (b : Fin 4) :
    (s.memWrite a v).memRead b = if b.val = a.toNat then v.setWidth 8 else s.memRead b := by
  simp only [State.memRead, State.memWrite_mem_of_le s v ha, Memory.read_write, eq_comm (a := a.toNat)]

/-- A store changes no field but the buffer. -/
theorem State.memWrite_frame (s : State) (a : Addr) (v : Word) : { s.memWrite a v with mem := s.mem } = s := by
  apply State.ext_fields <;> simp

/-- Settles O17: the store by the read after a write and the frame, the other case by the guard of MemWrite. -/
theorem memWriteOfOneSlot : Obligations.MemWriteOfOneSlot := by
  intro s a v
  refine ⟨fun ha b => ?_, fun _ => s.memWrite_frame a v, fun ha => s.memWrite_of_not_le v ?_⟩
  · rw [s.memRead_memWrite v (by bv_omega) b, BitVec.setWidth_eq_extractLsb' (by decide)]
  · bv_omega

/-! ## The host's lines while a command is performed (R50) -/

theorem State.rst_eq_false {s : State} : s.rst = false ↔ s.inputs.head? ≠ some .reset := by
  rw [← Bool.not_eq_true, State.rst_eq_true]

/-- The step of a busy block outside reset: one event is performed, an idle input passes and a presented word is held
(R55, R165). The host's lines reach the remaining inputs only. -/
theorem step_of_busy {s : State} {e : PinEvent} {rest : List PinEvent} (hp : s.pending = e :: rest)
    (hr : s.rst = false) :
    step s = .next { s with
      pins := s.pins.write e
      pending := rest
      inputs := if s.input = .idle then s.inputs.tail else s.inputs } := by
  have hbusy : s.busy = true := s.busy_eq_true.2 (by simp [hp])
  cases hi : s.input with
  | reset => simp [State.rst, hi] at hr
  | present w => simp [step, hi, hbusy, s.performNext_cons hp]
  | idle => simp [step, hi, s.performNext_cons hp, State.popInput]

/-- Settles O34: under any host lines but a reset the step performs the same event. -/
theorem hostLinesDoNotDisturbACommand : Obligations.HostLinesDoNotDisturbACommand := by
  intro s ins hp hr hins
  obtain ⟨e, rest, he⟩ := List.exists_cons_of_ne_nil hp
  exact ⟨_, _, step_of_busy he hr, step_of_busy (s := { s with inputs := ins }) he (State.rst_eq_false.2 hins), rfl⟩

/-! ## A BIT given again (R45) -/

theorem State.emit_emit (s : State) (t u : List PinEvent) : (s.emit t).emit u = s.emit (t ++ u) := by
  simp [State.emit]

/-- What a BIT appends, as the digit writes of the command. -/
theorem bitTransition_pending_eq_append (v : Word) (a : Addr) (s : State) :
    (bitTransition v a s).pending = s.pending ++ digitWritesTrace (commandWrites (.bit v a) s) := by
  rw [bitTransition_pending]
  by_cases h : accept v a = true <;> simp [commandWrites, digitWritesTrace, h]

/-- A BIT whose value its slot holds already sends its digit write and changes no register. -/
theorem bitTransition_of_stored {v : Word} {a : Addr} {s : State} (hw : Memory.wf s.mem = true)
    (hs : accept v a = true → a ≤ 3#8 → Memory.read s.mem a.toNat = v.setWidth 8) :
    bitTransition v a s = s.emit (digitWritesTrace (commandWrites (.bit v a) s)) := by
  have hmem : (bitTransition v a s).mem = s.mem := by
    rw [bitTransition_mem]
    split
    case isTrue h => rw [← hs h.1 h.2, Memory.write_self ((addr_le_three_iff a).1 h.2) hw]
    case isFalse => rfl
  exact State.ext_fields hmem (by simp) (by simp) (by simp) (bitTransition_pending_eq_append v a s) (by simp)

/-! ## A sequence of BITs given again (R120, R134) -/

/-- The BITs of a list of values and addresses, one after another. -/
def bitSequence (bs : List (Word × Addr)) (s : State) : State :=
  bs.foldl (fun s b => bitTransition b.1 b.2 s) s

/-- The digit writes of a sequence of BITs. -/
def bitSequenceWrites (bs : List (Word × Addr)) (s : State) : List DigitWrite :=
  bs.flatMap fun b => commandWrites (.bit b.1 b.2) s

/-- The values of a sequence of BITs that a slot takes are in their slots. -/
def State.Stores (s : State) (bs : List (Word × Addr)) : Prop :=
  ∀ b ∈ bs, accept b.1 b.2 = true → b.2 ≤ 3#8 → Memory.read s.mem b.2.toNat = b.1.setWidth 8

@[simp] theorem bitSequence_nil (s : State) : bitSequence [] s = s := rfl
@[simp] theorem bitSequence_cons (b : Word × Addr) (bs : List (Word × Addr)) (s : State) :
    bitSequence (b :: bs) s = bitSequence bs (bitTransition b.1 b.2 s) := rfl

/-- Which digit writes a sequence of BITs sends depends on `brightness` and `colon` only. -/
theorem bitSequenceWrites_congr {s t : State} (bs : List (Word × Addr)) (hb : t.brightness = s.brightness)
    (hc : t.colon = s.colon) : bitSequenceWrites bs t = bitSequenceWrites bs s := by
  simp [bitSequenceWrites, commandWrites, hb, hc]

theorem digitWritesTrace_bitSequenceWrites_cons (b : Word × Addr) (bs : List (Word × Addr)) (s : State) :
    digitWritesTrace (bitSequenceWrites (b :: bs) s) =
      digitWritesTrace (commandWrites (.bit b.1 b.2) s) ++ digitWritesTrace (bitSequenceWrites bs s) :=
  digitWritesTrace_append _ _

@[simp] theorem bitSequence_brightness (bs : List (Word × Addr)) (s : State) :
    (bitSequence bs s).brightness = s.brightness := by
  induction bs generalizing s with
  | nil => rfl
  | cons b bs ih => simp [ih]

@[simp] theorem bitSequence_colon (bs : List (Word × Addr)) (s : State) :
    (bitSequence bs s).colon = s.colon := by
  induction bs generalizing s with
  | nil => rfl
  | cons b bs ih => simp [ih]

theorem bitSequence_wf (bs : List (Word × Addr)) {s : State} (h : Memory.wf s.mem = true) :
    Memory.wf (bitSequence bs s).mem = true := by
  induction bs generalizing s with
  | nil => exact h
  | cons b bs ih => exact ih (bitTransition_wf _ _ _ h)

theorem bitSequence_pending (bs : List (Word × Addr)) (s : State) :
    (bitSequence bs s).pending = s.pending ++ digitWritesTrace (bitSequenceWrites bs s) := by
  induction bs generalizing s with
  | nil => simp [bitSequenceWrites, digitWritesTrace]
  | cons b bs ih =>
    rw [bitSequence_cons, ih, bitTransition_pending_eq_append, digitWritesTrace_bitSequenceWrites_cons,
      bitSequenceWrites_congr bs (bitTransition_brightness ..) (bitTransition_colon ..), List.append_assoc]

/-- A BIT leaves every slot but its own. -/
theorem bitTransition_read_of_ne (v : Word) {a : Addr} (s : State) {n : Nat} (h : a.toNat ≠ n) :
    Memory.read (bitTransition v a s).mem n = Memory.read s.mem n := by
  rw [bitTransition_mem]
  split
  case isTrue => rw [Memory.read_write, if_neg h]
  case isFalse => rfl

theorem bitSequence_read_of_notMem {bs : List (Word × Addr)} (s : State) {a : Addr} (h : a ∉ bs.map Prod.snd) :
    Memory.read (bitSequence bs s).mem a.toNat = Memory.read s.mem a.toNat := by
  induction bs generalizing s with
  | nil => rfl
  | cons b bs ih =>
    simp only [List.map_cons, List.mem_cons, not_or] at h
    rw [bitSequence_cons, ih _ h.2, bitTransition_read_of_ne]
    exact fun hn => h.1 (BitVec.eq_of_toNat_eq hn).symm

/-- BITs to different addresses leave their values in the slots: no later one writes over an earlier one. -/
theorem bitSequence_stores {bs : List (Word × Addr)} (s : State) (h : (bs.map Prod.snd).Nodup) :
    (bitSequence bs s).Stores bs := by
  induction bs generalizing s with
  | nil => exact fun _ hb => nomatch hb
  | cons b bs ih =>
    obtain ⟨hnot, hnodup⟩ := List.nodup_cons.1 h
    intro c hc hacc hle
    rcases List.mem_cons.1 hc with rfl | hmem
    · rw [bitSequence_cons, bitSequence_read_of_notMem _ hnot, bitTransition_mem, if_pos ⟨hacc, hle⟩,
        Memory.read_write, if_pos rfl]
    · exact ih _ hnodup c hmem hacc hle

/-- BITs whose values the slots hold already send their digit writes and change no register. -/
theorem bitSequence_of_stores {bs : List (Word × Addr)} {s : State} (hw : Memory.wf s.mem = true)
    (hs : s.Stores bs) : bitSequence bs s = s.emit (digitWritesTrace (bitSequenceWrites bs s)) := by
  induction bs generalizing s with
  | nil => simp [bitSequenceWrites, digitWritesTrace, State.emit]
  | cons b bs ih =>
    obtain ⟨hb, hbs⟩ := List.forall_mem_cons.1 hs
    rw [bitSequence_cons, bitTransition_of_stored hw hb, ih (s := s.emit _) hw hbs,
      bitSequenceWrites_congr bs (State.emit_brightness ..) (State.emit_colon ..),
      digitWritesTrace_bitSequenceWrites_cons, State.emit_emit]

/-- A command that is a sequence of BITs to different addresses, given twice: the same digit writes again, and no
register changed. -/
theorem bitSequence_bitSequence {bs : List (Word × Addr)} {s : State} (hw : Memory.wf s.mem = true)
    (h : (bs.map Prod.snd).Nodup) :
    bitSequence bs (bitSequence bs s) = (bitSequence bs s).emit (digitWritesTrace (bitSequenceWrites bs s)) := by
  rw [bitSequence_of_stores (bitSequence_wf bs hw) (bitSequence_stores s h),
    bitSequenceWrites_congr bs (bitSequence_brightness ..) (bitSequence_colon ..)]

/-! ## The commands given twice (R45) -/

/-- SHOW as a sequence of BITs (R120). -/
def showBits (v : Word) (z : Bool) : List (Word × Addr) :=
  [((showDigits v z).p3, 3#8), ((showDigits v z).p2, 2#8), ((showDigits v z).p1, 1#8), ((showDigits v z).p0, 0#8)]

/-- CLEAR as a sequence of BITs (R134). -/
def clearBits : List (Word × Addr) := [(blank, 0#8), (blank, 1#8), (blank, 2#8), (blank, 3#8)]

theorem exec_showNum_eq_bitSequence (v : Word) (z : Bool) (s : State) :
    exec (.showNum v z) s = .next (bitSequence (showBits v z) s) := exec_showNum v z s

theorem exec_clear_eq_bitSequence (s : State) : exec .clear s = .next (bitSequence clearBits s) := rfl

theorem exec_bit_eq_bitSequence (v : Word) (a : Addr) (s : State) :
    exec (.bit v a) s = .next (bitSequence [(v, a)] s) := rfl

/-- SET in a canonical and legal buffer: its level, its digit writes, and nothing else (R130). -/
theorem exec_set_of_legal (l : Word) {s : State} (hw : Memory.wf s.mem = true) (hl : Memory.legal s.mem = true) :
    exec (.set l) s =
      .next (({ s with brightness := l } : State).emit (digitWritesTrace (commandWrites (.set l) s))) := by
  simp [resend_of_legal, hw, hl, State.emit_emit, digitWritesTrace, commandWrites, State.memRead, slotAddr]

/-- POINT in a canonical and legal buffer: its flag, its digit write, and nothing else (R132). -/
theorem exec_point_of_legal (e : Bool) {s : State} (hw : Memory.wf s.mem = true) (hl : Memory.legal s.mem = true) :
    exec (.point e) s =
      .next (({ s with colon := e } : State).emit (digitWritesTrace (commandWrites (.point e) s))) := by
  simp [resend_of_legal, hw, hl, digitWritesTrace, commandWrites, State.memRead, slotAddr]

/-- `i`, which leads from `s` to `t`, appends a trace to what is pending, and from `t` it does nothing but append that
trace again. -/
def Repeats (i : Instr) (s t : State) : Prop :=
  ∃ trace, t.pending = s.pending ++ trace ∧ exec i t = .next (t.emit trace)

theorem repeats_of_bitSequence {i : Instr} {bs : List (Word × Addr)} {s t : State}
    (hexec : ∀ u, exec i u = .next (bitSequence bs u)) (hbs : (bs.map Prod.snd).Nodup)
    (hw : Memory.wf s.mem = true) (ht : exec i s = .next t) : Repeats i s t := by
  rw [hexec] at ht
  cases ht
  exact ⟨_, bitSequence_pending bs s, by rw [hexec, bitSequence_bitSequence hw hbs]⟩

/-- Every command repeats itself: SHOW, BIT and CLEAR find their own values in the slots, SET and POINT send what the
slots hold. -/
theorem repeats_of_isCommand {i : Instr} {s t : State} (hi : i.isCommand = true) (hw : Memory.wf s.mem = true)
    (hl : Memory.legal s.mem = true) (ht : exec i s = .next t) : Repeats i s t := by
  cases i with
  | showNum v z => exact repeats_of_bitSequence (exec_showNum_eq_bitSequence v z) (by simp [showBits]) hw ht
  | bit v a => exact repeats_of_bitSequence (exec_bit_eq_bitSequence v a) (List.nodup_singleton a) hw ht
  | clear => exact repeats_of_bitSequence exec_clear_eq_bitSequence (by decide) hw ht
  | set l =>
    rw [exec_set_of_legal l hw hl] at ht
    cases ht
    exact ⟨_, rfl, exec_set_of_legal l hw hl⟩
  | point e =>
    rw [exec_point_of_legal e hw hl] at ht
    cases ht
    exact ⟨_, rfl, exec_point_of_legal e hw hl⟩
  | reserved | wireMode | wireAddr | wireSeg | wireDispctrl => cases hi

/-- Settles O27: the second execution appends the first one's trace and changes no register. -/
theorem commandsAreIdempotentOnRegisters : Obligations.CommandsAreIdempotentOnRegisters := by
  intro i s t hi hw hl ht
  obtain ⟨trace, hp, hu⟩ := repeats_of_isCommand hi hw hl ht
  exact ⟨trace, _, hp, hu, rfl⟩

end Sys2Proof.Machine

/-! PROOFS of the statements about the encoding (30_encoding.md): the command word and its decoder, the wire bytes, the
acceptance of a command, and its whole path to the receiver of its frames. -/

namespace Sys2Proof.Machine

/-! ## The command word and its decoder (R56 to R60, R68) -/

theorem cmdWord_eq_iff {v : Word} {a : Addr} {f : BitVec 1} {op : BitVec 3} {w : CmdWord} :
    cmdWord v a f op = w ↔
      valueField w = v ∧ addrField w = a ∧ reservedField w = 0#4 ∧ flagField w = f ∧ opField w = op := by
  constructor
  · rintro rfl; simp
  · rintro ⟨rfl, rfl, hr, rfl, rfl⟩; exact cmdWord_of_fields w hr

theorem encode_decode (w : CmdWord) : encode (decode w) = .cmd48 w := by
  rcases decode_cases w with ⟨hr, ho, ha, h⟩ | ⟨hr, ho, ha, hf, h⟩ | ⟨hr, ho, hf, h⟩ | ⟨hr, ho, hv, ha, h⟩ |
    ⟨hr, ho, hv, ha, hf, h⟩ | ⟨-, h⟩ <;> simp [encode, cmdWord_eq_iff, *]

/-- The decoder is the inverse of the encoder on the five commands. -/
theorem decode_eq_iff {i : Instr} {w : CmdWord} (hi : i.isCommand = true) :
    decode w = i ↔ encode i = .cmd48 w := by
  constructor
  · rintro rfl; exact encode_decode w
  · intro h
    cases i with
    | showNum | set | bit | point => cases h; simp [decode]
    | clear => cases h; rfl
    | reserved | wireMode | wireAddr | wireSeg | wireDispctrl => cases hi

theorem decode_eq_reserved_iff (w : CmdWord) : decode w = .reserved w ↔ reservedWord w = true := by
  rcases decode_cases w with ⟨hr, ho, ha, h⟩ | ⟨hr, ho, ha, hf, h⟩ | ⟨hr, ho, hf, h⟩ | ⟨hr, ho, hv, ha, h⟩ |
    ⟨hr, ho, hv, ha, hf, h⟩ | ⟨hres, h⟩
  · simp [reservedWord_iff, hr, ho, ha, h]
  · simp [reservedWord_iff, hr, ho, ha, hf, h]
  · simp [reservedWord_iff, hr, ho, hf, h]
  · simp [reservedWord_iff, hr, ho, hv, ha, h]
  · simp [reservedWord_iff, hr, ho, hv, ha, hf, h]
  · simp [hres, h]

theorem opcode_cases (op : BitVec 3) :
    op = 0#3 ∨ op = 1#3 ∨ op = 2#3 ∨ op = 3#3 ∨ op = 4#3 ∨ op = 5#3 ∨ op = 6#3 ∨ op = 7#3 := by
  revert op; decide

/-- R59's test, field by field: which opcodes leave A, F and V unused (R57). -/
theorem reservedWord_iff_unused_field (w : CmdWord) :
    reservedWord w = true ↔
      (opField w = 0#3 ∨ opField w = 6#3 ∨ opField w = 7#3 ∨ reservedField w ≠ 0#4 ∨
        (opField w ≠ 3#3 ∧ addrField w ≠ 0#8) ∨
        (opField w ≠ 1#3 ∧ opField w ≠ 4#3 ∧ flagField w ≠ 0#1) ∨
        ((opField w = 4#3 ∨ opField w = 5#3) ∧ valueField w ≠ 0#32)) := by
  rw [reservedWord_iff]
  rcases opcode_cases (opField w) with h | h | h | h | h | h | h | h <;>
    simp [h, or_assoc, or_comm, or_left_comm]

theorem flagBits_getLsbD (w : CmdWord) : flagBits (w.getLsbD 3) = flagField w := by
  rw [← flagOperand_flagField, flagBits_flagOperand]

/-! Each (match, mask) pair of R60, field by field: a used operand's field is masked out, every other field is tested. -/

theorem showNum_match_iff (w : CmdWord) :
    w &&& 0x00000000FFF7#48 = 1#48 ↔ decode w = .showNum (valueField w) (w.getLsbD 3) := by
  rw [decode_eq_iff rfl, encode, flagBits_getLsbD]
  refine (word_and_eq_iff w 0#32 0#32 (.allOnes 8) 0#8 (.allOnes 4) 0#4 0#1 0#1 (.allOnes 3) 1#3).trans ?_
  simp [-BitVec.reduceAllOnes, cmdWord_eq_iff, and_assoc]

theorem set_match_iff (w : CmdWord) : w &&& 0x00000000FFFF#48 = 2#48 ↔ decode w = .set (valueField w) := by
  rw [decode_eq_iff rfl, encode]
  refine (word_and_eq_iff w 0#32 0#32 (.allOnes 8) 0#8 (.allOnes 4) 0#4 (.allOnes 1) 0#1 (.allOnes 3) 2#3).trans ?_
  simp [-BitVec.reduceAllOnes, cmdWord_eq_iff, and_assoc]

theorem bit_match_iff (w : CmdWord) :
    w &&& 0x0000000000FF#48 = 3#48 ↔ decode w = .bit (valueField w) (addrField w) := by
  rw [decode_eq_iff rfl, encode]
  refine (word_and_eq_iff w 0#32 0#32 0#8 0#8 (.allOnes 4) 0#4 (.allOnes 1) 0#1 (.allOnes 3) 3#3).trans ?_
  simp [-BitVec.reduceAllOnes, cmdWord_eq_iff, and_assoc]

theorem point_match_iff (w : CmdWord) : w &&& 0xFFFFFFFFFFF7#48 = 4#48 ↔ decode w = .point (w.getLsbD 3) := by
  rw [decode_eq_iff rfl, encode, flagBits_getLsbD]
  refine (word_and_eq_iff w (.allOnes 32) 0#32 (.allOnes 8) 0#8 (.allOnes 4) 0#4 0#1 0#1 (.allOnes 3) 4#3).trans ?_
  simp [-BitVec.reduceAllOnes, cmdWord_eq_iff, and_assoc]

theorem clear_match_iff (w : CmdWord) : w &&& 0xFFFFFFFFFFFF#48 = 5#48 ↔ decode w = .clear := by
  rw [decode_eq_iff rfl, encode]
  refine (word_and_eq_iff w (.allOnes 32) 0#32 (.allOnes 8) 0#8 (.allOnes 4) 0#4 (.allOnes 1) 0#1
    (.allOnes 3) 5#3).trans ?_
  simp [-BitVec.reduceAllOnes, cmdWord_eq_iff, and_assoc]

/-- The decoder answers one of the five commands, with the operands of its fields, or RESERVED (R60). -/
theorem decode_eq_command_or_reserved (w : CmdWord) :
    decode w = .showNum (valueField w) (w.getLsbD 3) ∨ decode w = .set (valueField w) ∨
      decode w = .bit (valueField w) (addrField w) ∨ decode w = .point (w.getLsbD 3) ∨ decode w = .clear ∨
      decode w = .reserved w := by
  rw [← flagOperand_flagField]
  rcases decode_cases w with ⟨_, _, _, h⟩ | ⟨_, _, _, _, h⟩ | ⟨_, _, _, h⟩ | ⟨_, _, _, _, h⟩ |
    ⟨_, _, _, _, _, h⟩ | ⟨_, h⟩ <;> simp [h]

/-- Settles O5: a (match, mask) pair each, and the decoder answers nothing else. -/
theorem decodeIsMatchAndMask : Obligations.DecodeIsMatchAndMask := by
  intro w
  refine ⟨showNum_match_iff w, set_match_iff w, bit_match_iff w, point_match_iff w, clear_match_iff w, ?_⟩
  rw [Ne, showNum_match_iff, Ne, set_match_iff, Ne, bit_match_iff, Ne, point_match_iff, Ne, clear_match_iff]
  intro hshow hset hbit hpoint hclear
  simpa only [hshow, hset, hbit, hpoint, hclear, false_or] using decode_eq_command_or_reserved w

/-- The concatenation of the fields as shifts and ORs (R68): each shift is the width of the fields below. -/
theorem cmdWord_eq_or (v : Word) (a : Addr) (f : BitVec 1) (op : BitVec 3) :
    cmdWord v a f op =
      (v.setWidth 48 <<< 16) ||| (a.setWidth 48 <<< 8) ||| (f.setWidth 48 <<< 3) ||| op.setWidth 48 :=
  calc cmdWord v a f op
    _ = (v ++ a ++ 0#4 ++ f ++ op).setWidth 48 := (BitVec.setWidth_eq _).symm
    _ = (((v.setWidth 48 <<< 8 ||| a.setWidth 48) <<< 4 ||| (0#4).setWidth 48) <<< 1 ||| f.setWidth 48) <<< 3 |||
          op.setWidth 48 := by simp only [BitVec.setWidth_append_eq_shiftLeft_setWidth_or]
    _ = _ := by simp [BitVec.shiftLeft_or_distrib, ← BitVec.shiftLeft_add]

theorem flagBits_eq_ofBool (z : Bool) : flagBits z = BitVec.ofBool z := by cases z <;> rfl

/-- Settles O6: the formula from the concatenation, the fields of each command from its encoding. -/
theorem encodingFollowsTheFormula : Obligations.EncodingFollowsTheFormula := by
  refine ⟨cmdWord_eq_or, fun v z => ?_, fun _ => rfl, fun _ _ => rfl, fun e => ?_, rfl, rfl, rfl, rfl, rfl, rfl⟩
  · rw [encode, flagBits_eq_ofBool]
  · rw [encode, flagBits_eq_ofBool]

/-! ## The wire bytes (R62, R63, R65) -/

theorem addrByte_bits (a : Addr) :
    (addrByte a).extractLsb' 6 2 = 3#2 ∧ (addrByte a).extractLsb' 0 6 = a.extractLsb' 0 6 := by
  revert a; decide

theorem addrByte_toNat (a : Addr) : a.toNat ≤ 3 → (addrByte a).toNat = 0xC0 + a.toNat := by
  revert a; decide

theorem dispctrlByte_toNat (l : Word) : (dispctrlByte l).toNat = (0x88 + l.toNat) % 256 := by
  simp [dispctrlByte]

/-- Up to brightness 7 the sum carries nothing into bits 7 to 3 (R65). -/
theorem dispctrlByte_bits {l : Word} (h : l.toNat ≤ 7) :
    (dispctrlByte l).extractLsb' 3 5 = 0b10001#5 ∧ (dispctrlByte l).extractLsb' 0 3 = l.extractLsb' 0 3 := by
  constructor <;> apply BitVec.eq_of_toNat_eq <;>
    simp only [BitVec.extractLsb'_toNat, dispctrlByte_toNat, Nat.shiftRight_eq_div_pow, BitVec.toNat_ofNat] <;>
    omega

/-- Settles O7: the ADDR byte over its 256 operands, the DISPCTRL byte by arithmetic. -/
theorem wireBytesOfModeAddrDispctrl : Obligations.WireBytesOfModeAddrDispctrl :=
  ⟨rfl, addrByte_bits, addrByte_toNat, dispctrlByte_toNat, fun _ => dispctrlByte_bits, rfl, rfl, rfl⟩

/-! ## The acceptance of a command (R55) -/

/-- The step of an idle block to which a word is presented. -/
theorem step_of_present {s : State} {w : CmdWord} {rest : List Input} (hp : s.pending = [])
    (hi : s.inputs = .present w :: rest) : step s = exec (decode w) { s with inputs := rest } := by
  have hbusy : s.busy = false := s.busy_eq_false.2 hp
  simp [step, State.input, hi, hbusy, State.popInput]

/-- The step of an idle block to which nothing is presented. -/
theorem step_of_idle {s : State} (hp : s.pending = []) (hi : s.input = .idle) :
    step s = .next { s with inputs := s.inputs.tail } := by
  simp [step, hi, s.performNext_nil hp, State.popInput]

/-- Settles O4: the decoder's last case, R59's test field by field, and the refusal by RESERVED's meaning. -/
theorem reservedWordsAreRefused : Obligations.ReservedWordsAreRefused := by
  refine fun w => ⟨decode_eq_reserved_iff w, reservedWord_iff_unused_field w, fun hres s rest hp hi => ?_⟩
  rw [step_of_present hp hi, (decode_eq_reserved_iff w).2 hres, exec_reserved]

/-- Settles O31. -/
theorem stepRunsThePresentedCommand : Obligations.StepRunsThePresentedCommand :=
  fun _ _ _ => step_of_present

/-- Settles O33, for a list of inputs that goes on and for one that has ended. -/
theorem idleStepChangesNothing : Obligations.IdleStepChangesNothing := by
  rintro s rest hp (hi | ⟨hi, rfl⟩)
  · rw [step_of_idle hp (by simp [State.input, hi]), hi, List.tail_cons]
  · rw [step_of_idle hp (by simp [State.input, hi]), hi, List.tail_nil]

/-- A 48-bit table word is placed on `cmd_word`: it decodes to no wire row. -/
theorem State.withFetchWord_48 (s : State) (w : CmdWord) : s.withFetchWord 48 w.toNat = s.loadCommand w := by
  have hdecode : decodeTableWord 48 w.toNat = some (decode w) := by simp [decodeTableWord]
  simp [State.withFetchWord, State.loadWord, hdecode, decode_isWire]

/-- Settles O36: the placed word is the one presented to the drained block. -/
theorem fetchWordRunsNext : Obligations.FetchWordRunsNext := by
  intro s w
  rw [s.withFetchWord_48 w]
  exact step_of_present (s := s.loadCommand w) rfl rfl

/-! ## One event of a busy block (R30, R165) -/

theorem Pins.write_eq (p : Pins) (e : PinEvent) :
    p.write e = ⟨if e.pin = .clk then e.level else p.clk, if e.pin = .dio then e.level else p.dio⟩ := by
  obtain ⟨pin, l⟩ := e
  cases pin <;> rfl

/-- Settles O32, by the step of a busy block. -/
theorem busyStepPerformsTheFirstEvent : Obligations.BusyStepPerformsTheFirstEvent := by
  intro s e rest hp hr
  refine ⟨_, step_of_busy hp hr, rfl, by rw [Pins.write_eq], by rw [Pins.write_eq], rfl, rfl, rfl, ?_, ?_⟩
  · intro w later hi; simp [State.input, hi]
  · intro later hi; simp [State.input, hi]

/-! ## A run after which nothing is pending (R165, R166) -/

theorem State.drain_of_nil {s : State} (h : s.pending = []) : s.drain = s :=
  State.ext_fields rfl rfl rfl (by simp [h]) (by simp [h]) rfl

/-- As many steps as there are pending events perform them all. -/
theorem run_pending {s : State} (hi : s.inputs = []) :
    Host.Core.run Sys2Proof.core s.pending.length s = .next s.drain ∧
      pinsAlong s.pending.length s = s.pins.levels s.pending := by
  induction hp : s.pending generalizing s with
  | nil => exact ⟨congrArg _ (State.drain_of_nil hp).symm, rfl⟩
  | cons e rest ih =>
    have hstep := step_of_pending hp hi
    obtain ⟨hrun, hlevels⟩ := ih (s := { s with pins := s.pins.write e, pending := rest }) hi rfl
    rw [List.length_cons, run_succ_of_step _ hstep, pinsAlong_succ_of_step _ hstep, hrun, hlevels]
    exact ⟨by simp [State.drain, hp], rfl⟩

/-- An idle block whose host presents nothing more stays as it is. -/
theorem run_idle {s : State} (hp : s.pending = []) (hi : s.inputs = []) (n : Nat) :
    Host.Core.run Sys2Proof.core n s = .next s ∧ pinsAlong n s = List.replicate n s.pins := by
  have hstep : step s = .next s := by
    rw [step_of_idle hp (by simp [State.input, hi])]
    exact congrArg _ (State.ext_fields rfl rfl rfl rfl rfl (by simp [hi]))
  induction n with
  | zero => exact ⟨rfl, rfl⟩
  | succ n ih =>
    rw [run_succ_of_step n hstep, pinsAlong_succ_of_step n hstep, ih.1, ih.2]
    exact ⟨rfl, rfl⟩

/-- Steps enough for the pending events perform them all, and the pins stay at the levels they leave. -/
theorem run_of_pending_length_le {s : State} (hi : s.inputs = []) {n : Nat} (hn : s.pending.length ≤ n) :
    Host.Core.run Sys2Proof.core n s = .next s.drain ∧
      ∃ k, pinsAlong n s = s.pins.levels s.pending ++ List.replicate k s.drain.pins := by
  obtain ⟨k, rfl⟩ := Nat.exists_eq_add_of_le hn
  obtain ⟨hrun, hlevels⟩ := run_pending hi
  obtain ⟨hrest, hlevelsRest⟩ := run_add k hrun
  obtain ⟨hidle, hstay⟩ := run_idle (s := s.drain) rfl hi k
  exact ⟨by rw [hrest, hidle], k, by rw [hlevelsRest, hlevels, hstay]⟩

/-! ## Frames as the receiver gets them (R66, R90, R94) -/

/-- The nine samples of a byte: its bits, bit 0 first, and the 1 of the acknowledge slot (R82). -/
def byteSamples (b : Byte) : List Bool :=
  [b.getLsbD 0, b.getLsbD 1, b.getLsbD 2, b.getLsbD 3, b.getLsbD 4, b.getLsbD 5, b.getLsbD 6, b.getLsbD 7, true]

theorem bytesOfSamples_byteSamples_append (b : Byte) (bits : List Bool) :
    bytesOfSamples (byteSamples b ++ bits) = b :: bytesOfSamples bits :=
  congrArg (· :: bytesOfSamples bits) (byteOfBits_getLsbD b)

/-- A frame's samples, with the one of its STOP, are its bytes. -/
theorem bytesOfSamples_of_frame (bs : List Byte) : bytesOfSamples (bs.flatMap byteSamples ++ [false]) = bs := by
  induction bs with
  | nil => rfl
  | cons b bs ih => rw [List.flatMap_cons, List.append_assoc, bytesOfSamples_byteSamples_append, ih]

/-- Bytes written inside a frame add their samples. -/
theorem Receiver.watch_bytes (bits : List Bool) (done : List (List Byte)) (p : Pins) (bs : List Byte) :
    Receiver.watch ⟨some bits, done⟩ p (p.levels (bs.flatMap writeByteTrace)) =
      ⟨some (bits ++ bs.flatMap byteSamples), done⟩ := by
  induction bs generalizing bits p with
  | nil => simp
  | cons b bs ih =>
    rw [List.flatMap_cons, Receiver.watch_levels_append, Receiver.watch_writeByteTrace, ih, List.flatMap_cons,
      ← List.append_assoc, byteSamples]

/-- What a STOP finds: the levels a WRITEBYTE leaves, or START's when the frame is empty. -/
theorem Pins.writeAll_bytes (bs : List Byte) :
    Pins.writeAll ⟨false, false⟩ (bs.flatMap writeByteTrace) = ⟨true, true⟩ ∨
      Pins.writeAll ⟨false, false⟩ (bs.flatMap writeByteTrace) = ⟨false, false⟩ := by
  induction bs using List.reverseRecOn with
  | nil => exact .inr rfl
  | append_singleton bs b => exact .inl (by simp [Pins.writeAll_append])

theorem Receiver.watch_frameTrace (done : List (List Byte)) (p : Pins) (bs : List Byte) :
    Receiver.watch ⟨none, done⟩ p (p.levels (frameTrace bs)) = ⟨none, done ++ [bs]⟩ := by
  rw [frameTrace, Receiver.watch_levels_append, Receiver.watch_levels_append, Receiver.watch_startTrace,
    Receiver.watch_bytes, Pins.writeAll_append, Pins.writeAll_startTrace,
    Receiver.watch_stopTrace _ _ _ (Pins.writeAll_bytes bs), List.nil_append, bytesOfSamples_of_frame]

theorem dispctrlByte_eq_ofNat (l : Word) : dispctrlByte l = BitVec.ofNat 8 (0x88 + l.toNat) :=
  BitVec.eq_of_toNat_eq (dispctrlByte_toNat l)

theorem Receiver.watch_digitWrite (done : List (List Byte)) (p : Pins) (d : DigitWrite) :
    Receiver.watch ⟨none, done⟩ p (p.levels (digitWrite d.addr d.seg d.brightness)) =
      ⟨none, done ++ d.frames⟩ := by
  simp [digitWrite, modeFrame, addrDataFrame, dispctrlFrame, Receiver.watch_levels_append,
    Receiver.watch_frameTrace, DigitWrite.frames, dispctrlByte_eq_ofNat, modeByte, addrByte]

theorem Receiver.watch_digitWritesTrace (done : List (List Byte)) (p : Pins) (ws : List DigitWrite) :
    Receiver.watch ⟨none, done⟩ p (p.levels (digitWritesTrace ws)) =
      ⟨none, done ++ ws.flatMap DigitWrite.frames⟩ := by
  induction ws generalizing done p with
  | nil => simp [digitWritesTrace]
  | cons d ws ih =>
    rw [digitWritesTrace, List.flatMap_cons, Receiver.watch_levels_append, Receiver.watch_digitWrite,
      ← digitWritesTrace, ih, List.flatMap_cons, List.append_assoc]

/-! ## The digits of SHOW, on natural numbers (R121) -/

/-- At a position the number reaches, its decimal digit. -/
theorem ofNat_shownAt_of_le {v : Word} {k : Nat} (z : Bool) (h : k = 3 ∨ 10 ^ (3 - k) ≤ v.toNat) :
    BitVec.ofNat 32 (shownAt v.toNat z k) = v / BitVec.ofNat 32 (10 ^ (3 - k)) % 10#32 := by
  have hweight : 10 ^ (3 - k) < 2 ^ 32 :=
    (Nat.pow_le_pow_right (by decide) (Nat.sub_le 3 k)).trans_lt (by decide)
  have hdigit : v.toNat / 10 ^ (3 - k) % 10 < 2 ^ 32 := (Nat.mod_lt _ (by decide)).trans (by decide)
  apply BitVec.eq_of_toNat_eq
  simp [shownAt, h, Nat.mod_eq_of_lt hweight, Nat.mod_eq_of_lt hdigit, -Nat.reducePow]

/-- At a leading position the number does not reach, the padding. -/
theorem ofNat_shownAt_of_lt {v : Word} {k : Nat} (z : Bool) (hk : k ≠ 3) (h : v.toNat < 10 ^ (3 - k)) :
    BitVec.ofNat 32 (shownAt v.toNat z k) = padding z := by
  rw [shownAt, if_neg (by simp [hk, h])]
  cases z <;> rfl

/-- Band by band: one digit, two, three, or four and more. -/
theorem showDigits_eq_shownAt (v : Word) (z : Bool) :
    showDigits v z = ⟨BitVec.ofNat 32 (shownAt v.toNat z 3), BitVec.ofNat 32 (shownAt v.toNat z 2),
      BitVec.ofNat 32 (shownAt v.toNat z 1), BitVec.ofNat 32 (shownAt v.toNat z 0)⟩ := by
  simp only [showDigits, BitVec.lt_def, BitVec.toNat_ofNat, Nat.reducePow, Nat.reduceMod]
  split_ifs with h10 h100 h1000
  · simp (disch := omega) [ofNat_shownAt_of_le, ofNat_shownAt_of_lt, BitVec.umod_eq_of_lt (y := 10#32) h10]
  · simp (disch := omega) [ofNat_shownAt_of_le, ofNat_shownAt_of_lt]
  · simp (disch := omega) [ofNat_shownAt_of_le, ofNat_shownAt_of_lt]
  · simp (disch := omega) [ofNat_shownAt_of_le]

/-! ## What a command does besides its registers (R61, R112) -/

theorem bitSequenceWrites_showBits (v : Word) (z : Bool) (s : State) :
    bitSequenceWrites (showBits v z) s = commandWrites (.showNum v z) s := by
  obtain ⟨-, -, -, h0⟩ := accept_showDigits v z (a := 0#8) (by decide)
  obtain ⟨-, -, h1, -⟩ := accept_showDigits v z (a := 1#8) (by decide)
  obtain ⟨-, h2, -, -⟩ := accept_showDigits v z (a := 2#8) (by decide)
  obtain ⟨h3, -, -, -⟩ := accept_showDigits v z (a := 3#8) (by decide)
  simp only [bitSequenceWrites, showBits, commandWrites, List.flatMap_cons, List.flatMap_nil, h0, h1, h2, h3]
  rw [showDigits_eq_shownAt]
  rfl

theorem bitSequenceWrites_clearBits (s : State) : bitSequenceWrites clearBits s = commandWrites .clear s := by
  simp [bitSequenceWrites, clearBits, commandWrites, segByte, coding]

/-- Every command appends its digit writes and nothing else. -/
theorem exec_pending_of_isCommand {i : Instr} {s t : State} (hi : i.isCommand = true)
    (hw : Memory.wf s.mem = true) (hl : Memory.legal s.mem = true) (ht : exec i s = .next t) :
    t.pending = s.pending ++ digitWritesTrace (commandWrites i s) := by
  cases i with
  | showNum v z =>
    rw [exec_showNum_eq_bitSequence] at ht; cases ht
    rw [bitSequence_pending, bitSequenceWrites_showBits]
  | clear =>
    rw [exec_clear_eq_bitSequence] at ht; cases ht
    rw [bitSequence_pending, bitSequenceWrites_clearBits]
  | bit v a => rw [exec_bit] at ht; cases ht; exact bitTransition_pending_eq_append v a s
  | set l => rw [exec_set_of_legal l hw hl] at ht; cases ht; rfl
  | point e => rw [exec_point_of_legal e hw hl] at ht; cases ht; rfl
  | reserved | wireMode | wireAddr | wireSeg | wireDispctrl => cases hi

/-- No row moves a pin itself or touches the host's lines. -/
theorem exec_pins_inputs {i : Instr} {s t : State} (ht : exec i s = .next t) :
    t.pins = s.pins ∧ t.inputs = s.inputs := by
  cases i with
  | showNum v z => rw [exec_showNum] at ht; cases ht; simp
  | set l => rw [exec_set] at ht; cases ht; simp
  | bit v a => rw [exec_bit] at ht; cases ht; simp
  | point e => rw [exec_point] at ht; cases ht; simp
  | clear => rw [exec_clear] at ht; cases ht; simp
  | reserved w => rw [exec_reserved] at ht; cases ht
  | wireMode | wireAddr | wireSeg | wireDispctrl => rw [exec_of_isWire s rfl] at ht; cases ht; simp

/-- A command is no wire row and never stops. -/
theorem exec_of_isCommand {i : Instr} (s : State) (hi : i.isCommand = true) :
    i.isWire = false ∧ ∃ t, exec i s = .next t := by
  cases i with
  | showNum | set | bit | point | clear => exact ⟨rfl, _, rfl⟩
  | reserved | wireMode | wireAddr | wireSeg | wireDispctrl => cases hi

/-- At most four digit writes a command, so at most 528 events (R170). -/
theorem commandWrites_length_le (i : Instr) (s : State) : (commandWrites i s).length ≤ 4 := by
  cases i with
  | bit v a => by_cases h : accept v a = true <;> simp [commandWrites, h]
  | showNum | set | point | clear | reserved | wireMode | wireAddr | wireSeg | wireDispctrl => simp [commandWrites]

/-! ## The whole path of a command (R55, R61, R66, R94, R165) -/

/-- Settles O48: the first step accepts the command, the other 528 perform its digit writes, and the receiver gets each
as its three frames. -/
theorem commandReachesTheReceiver : Obligations.CommandReachesTheReceiver := by
  intro i w s hi hw hinv hp hin
  obtain ⟨hwire, t, ht⟩ := exec_of_isCommand { s with inputs := [] } hi
  have hstep : step s = .next t := by rw [step_of_present hp hin, (decode_eq_iff hi).2 hw, ht]
  obtain ⟨hpins, hins⟩ := exec_pins_inputs ht
  have haccepted : State.Inv { s with inputs := [] } := hinv.of_fields rfl rfl rfl
  have hdrained : t.pins.writeAll t.pending = ⟨true, true⟩ := (exec_inv hwire haccepted ht).drained
  have hpending : t.pending = digitWritesTrace (commandWrites i s) := by
    rw [exec_pending_of_isCommand hi haccepted.memWf haccepted.legal ht, hp]
    rfl
  have hlength : t.pending.length ≤ 528 := by
    rw [hpending, digitWritesTrace_length]
    have := commandWrites_length_le i s
    omega
  obtain ⟨hrun, idleSteps, hlevels⟩ := run_of_pending_length_le hins hlength
  constructor
  · rw [pinsAlong_succ_of_step 528 hstep, Receiver.watch_cons, hpins, Receiver.see_self, ← hpins, hlevels,
      Receiver.watch_append, Pins.getLastD_levels, State.drain_pins, Receiver.watch_replicate, hpending,
      Receiver.start, Receiver.watch_digitWritesTrace, List.nil_append]
  · exact ⟨t, ht, by rw [run_succ_of_step 528 hstep, hrun, State.drain, hdrained]⟩

end Sys2Proof.Machine

/-! PROOFS of the statements about the two-wire protocol engine (40_pinbus.md). -/

namespace Sys2Proof.Machine

/-! ## Where DIO moves (R82) -/

theorem dioMovesOnlyWhileClkLow_append (old : Pins) (ls ms : List Pins) :
    dioMovesOnlyWhileClkLow old (ls ++ ms) =
      (dioMovesOnlyWhileClkLow old ls && dioMovesOnlyWhileClkLow (ls.getLastD old) ms) := by
  induction ls generalizing old with
  | nil => rfl
  | cons new rest ih =>
    rw [List.cons_append, dioMovesOnlyWhileClkLow, ih, dioMovesOnlyWhileClkLow, List.getLastD_cons, Bool.and_assoc]

/-- One trace after another. -/
theorem dioMovesOnlyWhileClkLow_levels_append (p : Pins) (t u : List PinEvent) :
    dioMovesOnlyWhileClkLow p (p.levels (t ++ u)) =
      (dioMovesOnlyWhileClkLow p (p.levels t) &&
        dioMovesOnlyWhileClkLow (p.writeAll t) ((p.writeAll t).levels u)) := by
  rw [Pins.levels_append, dioMovesOnlyWhileClkLow_append, Pins.getLastD_levels]

/-- A bit slot drives CLK low before it drives DIO, whatever the levels before it. -/
theorem dioMovesOnlyWhileClkLow_bitSlot (p : Pins) (l : Bool) :
    dioMovesOnlyWhileClkLow p (p.levels (bitSlot l)) = true := by
  simp [bitSlot, dioMovesOnlyWhileClkLow]

/-- A WRITEBYTE is bit slots only. -/
theorem dioMovesOnlyWhileClkLow_writeByteTrace (p : Pins) (b : Byte) :
    dioMovesOnlyWhileClkLow p (p.levels (writeByteTrace b)) = true := by
  simp [writeByteTrace_eq, dioMovesOnlyWhileClkLow_levels_append, dioMovesOnlyWhileClkLow_bitSlot]

/-- START leaves CLK low, so the CLK write that opens the next WRITEBYTE changes nothing. -/
theorem head?_levels_writeByteTrace_of_startTrace (p : Pins) (b : Byte) :
    ((p.writeAll startTrace).levels (writeByteTrace b)).head? = some (p.writeAll startTrace) := by
  rw [Pins.writeAll_startTrace]
  rfl

/-! ## The sequences (R80, R81, R82) -/

/-- Settles O8: the sequences and the levels along them by evaluation, the levels they leave from any levels before. -/
theorem startAndStopSequences : Obligations.StartAndStopSequences :=
  ⟨rfl, rfl, fun p => ⟨p.writeAll_startTrace, p.writeAll_stopTrace⟩, rfl, rfl⟩

/-- Settles O9, from the nine bit slots of a WRITEBYTE. -/
theorem writeByteSequence : Obligations.WriteByteSequence := fun b p =>
  ⟨writeByteTrace_eq b, writeByteTrace_length b, p.writeAll_writeByteTrace b,
    dioMovesOnlyWhileClkLow_writeByteTrace p b, head?_levels_writeByteTrace_of_startTrace p b⟩

end Sys2Proof.Machine

/-! PROOFS of the statements about the command-frame generator (41_framer.md). -/

namespace Sys2Proof.Machine

/-! ## The frames, written out (R91 to R94) -/

theorem frameTrace_singleton (b : Byte) : frameTrace [b] = startTrace ++ writeByteTrace b ++ stopTrace := by
  simp [frameTrace]

theorem addrDataFrame_eq_opening_append_closing (a : Addr) (b : Byte) :
    addrDataFrame a b = addrOpening a ++ segClosing b := by
  simp [addrDataFrame, frameTrace, addrOpening, segClosing]

theorem modeFrame_eq : modeFrame = startTrace ++ writeByteTrace 0x44#8 ++ stopTrace :=
  frameTrace_singleton modeByte

theorem dispctrlFrame_eq (l : Word) :
    dispctrlFrame l = startTrace ++ writeByteTrace (BitVec.ofNat 8 (0x88 + l.toNat)) ++ stopTrace := by
  rw [dispctrlFrame, frameTrace_singleton, dispctrlByte_eq_ofNat]

/-- A digit write is the four wire rows' events in order (log entry 10). -/
theorem digitWrite_eq_wireTraces (a : Addr) (b : Byte) (l : Word) :
    digitWrite a b l =
      wireTrace .wireMode ++ (wireTrace (.wireAddr a) ++ (wireTrace (.wireSeg b) ++ wireTrace (.wireDispctrl l))) := by
  rw [digitWrite, addrDataFrame_eq_opening_append_closing, List.append_assoc, List.append_assoc]
  rfl

/-! ## The digit write and its rows -/

/-- Settles O13: MODE and DISPCTRL are frames of one byte, ADDR+DATA is its opening and its closing. -/
theorem digitWriteIsThreeFrames : Obligations.DigitWriteIsThreeFrames := by
  intro a b l
  refine ⟨?_, digitWrite_size a b l⟩
  rw [digitWrite, modeFrame_eq, addrDataFrame_eq_opening_append_closing, dispctrlFrame_eq, addrOpening, segClosing,
    addrByte, ← List.append_assoc (startTrace ++ _)]

/-- Settles O28: a wire row appends its `wireTrace`, which is the frame, or the part of one, that R91 to R93 give. -/
theorem wireRowsAppendTheirEvents : Obligations.WireRowsAppendTheirEvents := by
  intro a b l s
  refine ⟨?_, exec_of_isWire s rfl, exec_of_isWire s rfl, ?_⟩
  · rw [← modeFrame_eq]; exact exec_of_isWire s rfl
  · rw [← dispctrlFrame_eq]; exact exec_of_isWire s rfl

/-- Settles O29: each row appends its part, no row changes the brightness, and the parts in order are the digit write. -/
theorem wireRowsComposeTheDigitWrite : Obligations.WireRowsComposeTheDigitWrite := by
  intro a b s
  refine ⟨_, _, _, exec_of_isWire s rfl, exec_of_isWire _ rfl, exec_of_isWire _ rfl, ?_⟩
  rw [exec_of_isWire _ rfl, State.emit_emit, State.emit_emit, State.emit_emit, digitWrite_eq_wireTraces]
  rfl

end Sys2Proof.Machine

/-! PROOFS of the statements about the seven-segment encoder (42_segment_encoder.md). -/

namespace Sys2Proof.Machine

/-! ## The coding of what the gate accepts (R100, R101, R111) -/

@[simp] theorem coding_blank : coding blank = 0x00#8 := rfl

@[simp] theorem coding_zeroFill : coding zeroFill = 0x3F#8 := rfl

/-- A digit is no sentinel, so it is coded by the table. -/
theorem coding_of_le_nine {v : Word} (hv : v ≤ 9#32) : coding v = segmentTable v.toNat := by
  have hblank : v ≠ blank := by rintro rfl; exact absurd hv (by decide)
  have hzero : v ≠ zeroFill := by rintro rfl; exact absurd hv (by decide)
  rw [coding, if_neg hblank, if_neg hzero]

/-- Whatever the address, an accepted value is a sentinel or a digit. -/
theorem sentinel_or_le_nine_of_accept {v : Word} {a : Addr} (h : accept v a = true) :
    v = blank ∨ v = zeroFill ∨ v ≤ 9#32 := by
  simp only [accept, Bool.or_eq_true, Bool.and_eq_true, beq_iff_eq, decide_eq_true_eq, or_assoc] at h
  exact h.imp_right (Or.imp_right And.left)

/-- No digit of the table lights the colon's bit; beyond 9 the entries are OPEN (R102). -/
theorem segmentTable_getLsbD_seven {n : Nat} (hn : n ≤ 9) : (segmentTable n).getLsbD 7 = false := by
  interval_cases n <;> rfl

theorem coding_getLsbD_seven_of_accept {v : Word} {a : Addr} (h : accept v a = true) :
    (coding v).getLsbD 7 = false := by
  rcases sentinel_or_le_nine_of_accept h with rfl | rfl | hv
  · rfl
  · rfl
  · rw [coding_of_le_nine hv]
    exact segmentTable_getLsbD_seven hv

/-- Settles O14: the sentinels first, then every digit by the table. -/
theorem codingOfDigitsAndSentinels : Obligations.CodingOfDigitsAndSentinels := by
  refine ⟨rfl, ?_, coding_blank, coding_zeroFill⟩
  simp [coding_of_le_nine, segmentTable]

/-! ## The colon merge (R103) -/

/-- The merge as one OR, whether or not it takes place. -/
theorem segByte_eq_or (v : Word) (a : Addr) (colon : Bool) :
    segByte v a colon = coding v ||| if a == 1#8 && colon then 0x80#8 else 0x00#8 := by
  simp only [segByte, Bool.and_eq_true, beq_iff_eq]
  split_ifs
  · rfl
  · exact BitVec.or_zero.symm

theorem segByte_getLsbD_seven (v : Word) (a : Addr) (colon : Bool) :
    (segByte v a colon).getLsbD 7 = ((coding v).getLsbD 7 || (a == 1#8 && colon)) := by
  rw [segByte_eq_or, BitVec.getLsbD_or]
  cases a == 1#8 && colon <;> rfl

/-- Of every value, accepted or not, the merge leaves the seven segments alone. -/
theorem segByte_extractLsb'_segments (v : Word) (a : Addr) (colon : Bool) :
    (segByte v a colon).extractLsb' 0 7 = (coding v).extractLsb' 0 7 := by
  rw [segByte_eq_or, BitVec.extractLsb'_or]
  cases a == 1#8 && colon <;> exact BitVec.or_zero

/-- Settles O15: the coding of an accepted value leaves bit 7 to the merge, and the merge sets no other bit. -/
theorem colonBitOnlyAtAddressOne : Obligations.ColonBitOnlyAtAddressOne := by
  intro v a colon h
  refine ⟨?_, segByte_extractLsb'_segments v a colon⟩
  rw [segByte_getLsbD_seven, coding_getLsbD_seven_of_accept h, Bool.false_or]

end Sys2Proof.Machine

/-! PROOFS of the statements about BIT (43_bit.md). -/

namespace Sys2Proof.Machine

/-! ## An accepted BIT (R112) -/

/-- Every slot after an accepted BIT. At an address of 4 or more `a` names no slot, so this says that none changes. -/
theorem bitTransition_memRead_of_accept {v : Word} {a : Addr} (s : State) (h : accept v a = true) (b : Fin 4) :
    (bitTransition v a s).memRead b = if b.val = a.toNat then v.setWidth 8 else s.memRead b := by
  rw [bitTransition_of_accept s h]
  by_cases ha : a ≤ 3#8
  · exact State.memRead_memWrite _ v ha b
  · have hne : b.val ≠ a.toNat := by bv_omega
    rw [State.memWrite_of_not_le _ v ha, if_neg hne]
    rfl

/-- Beyond the buffer a BIT stores nothing, accepted or not (D9). -/
theorem bitTransition_mem_of_not_le (v : Word) {a : Addr} (s : State) (ha : ¬ a ≤ 3#8) :
    (bitTransition v a s).mem = s.mem := by
  rw [bitTransition_mem, if_neg fun h => ha h.2]

/-- Settles O18: what the BIT transition appends and stores, and the registers it leaves. -/
theorem acceptedBitWritesOneDigit : Obligations.AcceptedBitWritesOneDigit := by
  intro v a s h
  refine ⟨_, exec_bit v a s, ?_, fun b => ?_, fun ha => ?_, by simp, by simp, by simp, by simp⟩
  · rw [bitTransition_pending, if_pos h]
  · rw [bitTransition_memRead_of_accept s h b, BitVec.setWidth_eq_extractLsb' (by decide)]
  · exact bitTransition_mem_of_not_le v s (by bv_omega)

/-! ## The gate and a rejected BIT (R111, R113) -/

/-- The gate on the operands' numbers: a sentinel at any address, a digit at a slot's address. -/
theorem accept_iff (v : Word) (a : Addr) :
    accept v a = true ↔ v.toNat = 0x7F ∨ v.toNat = 0x3F ∨ (v.toNat ≤ 9 ∧ a.toNat ≤ 3) := by
  simp [accept, blank, zeroFill, BitVec.le_def, ← BitVec.toNat_inj, or_assoc]

theorem exec_bit_of_reject {v : Word} {a : Addr} (s : State) (h : accept v a = false) :
    exec (.bit v a) s = .next s := by
  rw [exec_bit, bitTransition_of_reject s h]

/-- Settles O16: the gate's test on numbers, and the no-op of what it does not accept. -/
theorem validityGate : Obligations.ValidityGate := by
  refine fun v a => ⟨accept_iff v a, fun hnot s => exec_bit_of_reject s ?_⟩
  rwa [← accept_iff, Bool.not_eq_true] at hnot

/-- Settles O19: the step accepts the word and the no-op leaves nothing pending, so the block is ready again. -/
theorem rejectedBitIsSilent : Obligations.RejectedBitIsSilent := by
  refine fun v a s h => ⟨exec_bit_of_reject s h, fun w rest hp hin hw => ⟨?_, fun hrst => ?_⟩⟩
  · rw [step_of_present hp hin, hw, exec_bit_of_reject _ h]
  · exact (State.cmdReady_iff _).2 ⟨hp, hrst⟩

end Sys2Proof.Machine

/-! PROOFS of the statements about SHOW (44_show.md). -/

namespace Sys2Proof.Machine

/-! ## What SHOW leaves in a slot (R120, R121) -/

/-- A position of SHOW holds a digit or a sentinel, which BIT accepts at a slot's address. -/
theorem accept_shownAt (n : Nat) (z : Bool) (k : Nat) {a : Addr} (ha : a ≤ 3#8) :
    accept (BitVec.ofNat 32 (shownAt n z k)) a = true := by
  rw [shownAt]
  split_ifs
  · have hdigit : n / 10 ^ (3 - k) % 10 < 10 := Nat.mod_lt _ (by decide)
    exact accept_of_lt_ten (by bv_omega) ha
  · exact accept_padding true a
  · exact accept_padding false a

/-- The BITs of SHOW, said on natural numbers. -/
theorem showBits_eq_shownAt (v : Word) (z : Bool) :
    showBits v z = [3, 2, 1, 0].map fun k => (BitVec.ofNat 32 (shownAt v.toNat z k), BitVec.ofNat 8 k) := by
  rw [showBits, showDigits_eq_shownAt]
  rfl

/-- The four BITs go to different slots, so each slot keeps the value of its own. -/
theorem read_of_exec_showNum {v : Word} {z : Bool} {s t : State} (ht : exec (.showNum v z) s = .next t) {k : Nat}
    (hk : k < 4) : Memory.read t.mem k = BitVec.ofNat 8 (shownAt v.toNat z k) := by
  rw [exec_showNum_eq_bitSequence] at ht
  cases ht
  have hmem : (BitVec.ofNat 32 (shownAt v.toNat z k), BitVec.ofNat 8 k) ∈ showBits v z := by
    rw [showBits_eq_shownAt]
    exact List.mem_map_of_mem (by grind)
  have haddr : (BitVec.ofNat 8 k).toNat = k := Nat.mod_eq_of_lt (by omega)
  have hle : BitVec.ofNat 8 k ≤ 3#8 := by bv_omega
  have hread := bitSequence_stores s (bs := showBits v z) (by simp [showBits]) _ hmem (accept_shownAt _ z k hle) hle
  rwa [haddr, BitVec.setWidth_ofNat_of_le (by decide)] at hread

/-- Settles O20: each slot by its own BIT, the digit writes of the four BITs, and the frame. -/
theorem showWritesTheFourPositions : Obligations.ShowWritesTheFourPositions := by
  intro v z s
  have ht := exec_showNum_eq_bitSequence v z s
  obtain ⟨hpins, hinputs⟩ := exec_pins_inputs ht
  refine ⟨_, ht, ?_, ?_, bitSequence_brightness .., bitSequence_colon .., hpins, hinputs⟩
  · exact List.map_congr_left fun k hk => read_of_exec_showNum ht (by grind)
  · rw [bitSequence_pending, bitSequenceWrites_showBits]

/-! ## The number shown (R121, R123) -/

/-- Settles O21: from 1000 on every position is reached by the number, so no slot holds the padding. -/
theorem showTruncatesToFourDigits : Obligations.ShowTruncatesToFourDigits := by
  intro v z s t hv ht
  have hdigit (k : Fin 4) : (t.memRead k).toNat = v.toNat / 10 ^ (3 - k.val) % 10 := by
    have hreached : 10 ^ (3 - k.val) ≤ v.toNat :=
      (Nat.pow_le_pow_right (by decide) (Nat.sub_le 3 k)).trans hv
    rw [State.memRead, read_of_exec_showNum ht k.isLt, shownAt, if_pos (.inr hreached)]
    exact Nat.mod_eq_of_lt ((Nat.mod_lt _ (by decide)).trans (by decide))
  refine ⟨fun k => ?_, ?_⟩
  · rw [hdigit]
    exact Nat.le_of_lt_succ (Nat.mod_lt _ (by decide))
  · simp only [hdigit, Fin.coe_ofNat_eq_mod, Nat.reduceMod, Nat.reduceSub, Nat.reducePow]
    omega

/-- ZERO-FILL and the digit 0 look the same, so with the fill flag a position that the number does not reach displays
the digit of its weight too. -/
theorem coding_shownAt_zeroFill (n k : Nat) :
    coding (slotOperand (BitVec.ofNat 8 (shownAt n true k))) = segmentTable (n / 10 ^ (3 - k) % 10) := by
  rw [shownAt, if_pos rfl]
  split_ifs with hreached
  · have hdigit : n / 10 ^ (3 - k) % 10 < 10 := Nat.mod_lt _ (by decide)
    have hslot : (slotOperand (BitVec.ofNat 8 (n / 10 ^ (3 - k) % 10))).toNat = n / 10 ^ (3 - k) % 10 := by
      rw [slotOperand, BitVec.setWidth_ofNat_of_le_of_lt (by decide) (by omega), BitVec.toNat_ofNat]
      omega
    rw [coding_of_le_nine (by bv_omega), hslot]
  · have hlt : n < 10 ^ (3 - k) := not_le.1 (not_or.1 hreached).2
    rw [Nat.div_eq_of_lt hlt]
    rfl

/-- Settles O22, position by position; below 10000 the four digits are the whole number. -/
theorem zeroFilledShowRendersFourDigits : Obligations.ZeroFilledShowRendersFourDigits := by
  intro v s t _ ht
  obtain ⟨_, ht', hslots, -⟩ := showWritesTheFourPositions v true s
  cases ht.symm.trans ht'
  simp [hslots, coding_shownAt_zeroFill]

/-- Settles O23: the BIT has stored the value already. -/
theorem showRedundantStoreIsHarmless : Obligations.ShowRedundantStoreIsHarmless :=
  fun _ _ s h => showPosition_of_accept s h

end Sys2Proof.Machine

/-! PROOFS of the statements about SET, POINT and CLEAR (45_set_point_clear.md). -/

namespace Sys2Proof.Machine

/-! ## SET and POINT: the slots sent again (R130, R132) -/

/-- Settles O24: every slot of a legal buffer is accepted again and stored as it stands, so only the level changes. -/
theorem setStoresLevelAndResendsAll : Obligations.SetStoresLevelAndResendsAll :=
  fun l _ hw hl => exec_set_of_legal l hw hl

theorem digitWritesTrace_singleton (d : DigitWrite) :
    digitWritesTrace [d] = digitWrite d.addr d.seg d.brightness := List.flatMap_singleton ..

/-- At the colon's own address the merge depends on the flag alone (R103). -/
theorem segByte_one (v : Word) (colon : Bool) :
    segByte v 1#8 colon = coding v ||| if colon then 0x80#8 else 0x00#8 := segByte_eq_or v 1#8 colon

/-- Settles O25: the one digit write is of slot 1, where the colon is merged with the flag just stored. -/
theorem pointStoresFlagAndResendsSlotOne : Obligations.PointStoresFlagAndResendsSlotOne := by
  intro e s hw hl
  rw [exec_point_of_legal e hw hl, commandWrites, digitWritesTrace_singleton, segByte_one]
  rfl

/-! ## CLEAR (R134) -/

/-- Settles O26: CLEAR is four BITs of BLANK, each accepted in every state, so the buffer needs no premise. -/
theorem clearBlanksEverySlot : Obligations.ClearBlanksEverySlot := by
  intro s
  have ht := exec_clear_eq_bitSequence s
  obtain ⟨hpins, hinputs⟩ := exec_pins_inputs ht
  refine ⟨_, ht, fun k => clearTransition_read s k k.isLt, ?_, bitSequence_brightness .., bitSequence_colon .., hpins,
    hinputs⟩
  rw [bitSequence_pending, bitSequenceWrites_clearBits]

end Sys2Proof.Machine

/-! PROOFS of the statements about exceptions and refusals (60_exceptions.md). -/

namespace Sys2Proof.Machine

/-! ## RESERVED (R59, R142) -/

/-- Settles O30: the equation of the row, whatever the word and the state. -/
theorem reservedRowStops : Obligations.ReservedRowStops := exec_reserved

/-! ## A legal host and the step (R140, R166) -/

/-- The decoder answers one of the five commands on every word that is not reserved (R59, R60). -/
theorem decode_isCommand {w : CmdWord} (hw : reservedWord w = false) : (decode w).isCommand = true := by
  rcases decode_eq_command_or_reserved w with h | h | h | h | h | h
  case inr.inr.inr.inr.inr => simp [(decode_eq_reserved_iff w).1 h] at hw
  all_goals rw [h]; rfl

/-- A step uses up the present input or holds it, and adds none (R55). -/
theorem step_inputs_suffix {s t : State} (h : step s = .next t) : t.inputs <:+ s.inputs := by
  rcases step_cases h with ⟨-, rfl⟩ | ⟨_, _, -, ⟨-, rfl⟩ | ⟨-, rfl⟩⟩ | ⟨w, -, -, hexec⟩ | ⟨-, -, rfl⟩
  · simp [List.tail_suffix]
  · simp [List.tail_suffix]
  · simp
  · rw [(exec_pins_inputs hexec).2]; exact List.tail_suffix _
  · exact List.tail_suffix _

theorem step_hostLegal {s t : State} (hs : s.hostLegal) (h : step s = .next t) : t.hostLegal :=
  fun w hw => hs w ((step_inputs_suffix h).mem hw)

/-- Only the acceptance of a reserved word stops the block, and a legal host presents none. -/
theorem exists_step_of_hostLegal {s : State} (hs : s.hostLegal) : ∃ t, step s = .next t := by
  cases hin : s.input with
  | reset => exact ⟨resetSequence s.popInput, by simp [step, hin]⟩
  | idle => exact ⟨s.performNext.popInput, by simp [step, hin]⟩
  | present w =>
    obtain ⟨rest, hi⟩ := s.inputs_of_present hin
    cases hp : s.pending with
    | cons e later => exact ⟨_, step_of_busy hp (by simp [State.rst, hin])⟩
    | nil =>
      have hw : reservedWord w = false := hs w (by simp [hi])
      rw [step_of_present hp hi]
      exact (exec_of_isCommand _ (decode_isCommand hw)).2

/-- Settles O43, by induction on the number of steps: each one is taken and leaves the host legal. -/
theorem blockNeverStops : Obligations.BlockNeverStops := by
  intro s hs n
  induction n generalizing s with
  | zero => exact ⟨s, rfl, hs⟩
  | succ n ih =>
    obtain ⟨u, hu⟩ := exists_step_of_hostLegal hs
    rw [run_succ_of_step n hu]
    exact ih u (step_hostLegal hs hu)

end Sys2Proof.Machine

/-! PROOFS of the statements about reset, sequencing and timing (70_reset_and_hazards.md). -/

namespace Sys2Proof.Machine

/-! ## The reset sequence of a running block (R161, R163) -/

/-- Whatever was pending, and whatever the slots held, the reset sequence ends in the state after reset. The buffer is
BLANK in every slot, and the empty list is the one canonical form of it. -/
theorem resetSequence_eq_reset {s : State} (hw : Memory.wf s.mem = true) :
    resetSequence s = { State.reset with inputs := s.inputs } := by
  have hmem : (resetSequence s).mem = [] :=
    Memory.ext_of_wf (resetSequence_wf s hw) Memory.wf_nil (resetSequence_read s)
  apply State.ext_fields <;> simp [hmem]

/-- The step of any block that sees `rst` (R160). -/
theorem step_of_reset {s : State} {rest : List Input} (hi : s.inputs = .reset :: rest) :
    step s = .next (resetSequence { s with inputs := rest }) := by
  simp [step, State.input, State.popInput, hi]

/-- Settles O40: the step that sees `rst` runs the reset sequence, which reads neither the pins nor what is pending. -/
theorem resetStepFromAnyState : Obligations.ResetStepFromAnyState := by
  intro s rest hw hi
  rw [step_of_reset hi, resetSequence_eq_reset (s := { s with inputs := rest }) hw]

/-! ## The sequencer (R165, R166) -/

/-- Settles O44: after one step for each pending event the block is drained, every event having been performed. -/
theorem pendingEventsAreAllPerformed : Obligations.PendingEventsAreAllPerformed :=
  fun _ hi => run_pending hi

/-- A run no longer than the pending events performs as many of them as it has steps. -/
theorem run_of_le_pending_length {s : State} (hi : s.inputs = []) {n : Nat} (hn : n ≤ s.pending.length) :
    Host.Core.run Sys2Proof.core n s =
      .next { s with pins := s.pins.writeAll (s.pending.take n), pending := s.pending.drop n } := by
  induction n generalizing s with
  | zero => rfl
  | succ n ih =>
    obtain ⟨e, rest, hp⟩ := List.exists_cons_of_length_pos (Nat.zero_lt_of_lt hn)
    have hrest : n ≤ rest.length := by simpa [hp] using hn
    rw [run_succ_of_step n (step_of_pending hp hi),
      ih (s := { s with pins := s.pins.write e, pending := rest }) hi hrest, hp]
    rfl

/-- Until the last pending event is performed the block is not ready (R166). -/
theorem exists_run_not_ready {s : State} (hi : s.inputs = []) {n : Nat} (hn : n < s.pending.length) :
    ∃ t, Host.Core.run Sys2Proof.core n s = .next t ∧ t.cmdReady = false := by
  refine ⟨_, run_of_le_pending_length hi hn.le, ?_⟩
  have hleft : s.pending.drop n ≠ [] := by simpa using hn
  rw [← Bool.not_eq_true, State.cmdReady_iff]
  exact fun hready => hleft hready.1

/-! ## The events of each command (R170) -/

/-- A command of an idle block has 132 events for each of its digit writes. -/
theorem exec_pending_length_of_isCommand {i : Instr} {s t : State} (hi : i.isCommand = true) (hp : s.pending = [])
    (hw : Memory.wf s.mem = true) (hl : Memory.legal s.mem = true) (ht : exec i s = .next t) :
    t.pending.length = 132 * (commandWrites i s).length := by
  rw [exec_pending_of_isCommand hi hw hl ht, hp, List.nil_append, digitWritesTrace_length]

theorem commandWrites_bit_length (v : Word) (a : Addr) (s : State) :
    (commandWrites (.bit v a) s).length = if accept v a then 1 else 0 := by
  rw [commandWrites]
  split <;> rfl

/-- Settles O47: a digit write for an accepted BIT and none for a rejected one, four for SHOW, SET and CLEAR, one for
POINT. -/
theorem eventCountsOfCommands : Obligations.EventCountsOfCommands := by
  intro s hp hw hl
  have hcount {i : Instr} {t : State} (hi : i.isCommand = true) (ht : exec i s = .next t) :
      t.pending.length = 132 * (commandWrites i s).length := exec_pending_length_of_isCommand hi hp hw hl ht
  refine ⟨fun v a t ht => ?_, fun _ _ _ => hcount rfl, fun _ _ => hcount rfl, fun _ _ => hcount rfl,
    fun _ => hcount rfl⟩
  rw [hcount rfl ht, commandWrites_bit_length]
  split <;> rfl

/-! ## The reset's CLEAR (R161, R162) -/

/-- With the colon off, CLEAR sends the segment byte 0x00 to each slot. -/
theorem clearTrace_of_colon_off (l : Word) :
    clearTrace false l =
      digitWrite 0#8 0x00#8 l ++ digitWrite 1#8 0x00#8 l ++ digitWrite 2#8 0x00#8 l ++ digitWrite 3#8 0x00#8 l := by
  simp [clearTrace, bitTrace, segByte]

theorem reset_pending_length : State.reset.pending.length = 528 := by
  simp [clearTrace_of_colon_off, digitWrite_size]

/-- The reset's last event is the end of a STOP (R81), so the OPEN levels before the first one do not matter. -/
theorem drain_reset : State.reset.drain =
    { mem := [], brightness := 7#32, colon := false, pins := ⟨true, true⟩, pending := [], inputs := [] } := by
  apply State.ext_fields <;> simp [clearTrace_of_colon_off, Pins.writeAll_append, Pins.writeAll_digitWrite]

/-- Settles O38: the fields of the state after reset, its pending CLEAR as four digit writes. -/
theorem resetStateIsClearPending : Obligations.ResetStateIsClearPending :=
  ⟨rfl, rfl, rfl, rfl, clearTrace_of_colon_off 7#32, rfl⟩

/-- Settles O39: the CLEAR has 528 events, so 528 steps drain the block and fewer leave it busy. -/
theorem resetCompletesAfter528Steps : Obligations.ResetCompletesAfter528Steps := by
  refine ⟨?_, fun n hn => exists_run_not_ready rfl (by rwa [reset_pending_length]), rfl⟩
  rw [← reset_pending_length, (run_pending rfl).1, drain_reset]

end Sys2Proof.Machine

/-! PROOFS of the statements that belong to no one chapter: the decoder as the inverse of the encoder, the bytes as a
receiver gets them, a wire row placed by `withFetchWord`, and the invariant at reset. -/

namespace Sys2Proof.Machine

/-! ## A table word by its format (R56, R61; log entry 13) -/

theorem decodeTableWord_cmd48 (w : CmdWord) : decodeTableWord 48 w.toNat = some (decode w) := by
  simp [decodeTableWord]

theorem decodeTableWord_wire8 (b : Byte) : decodeTableWord 8 b.toNat = some (decodeTableByte b) := by
  simp [decodeTableWord]

/-- Only a byte read as a SEG byte can be the low byte of a command instead. -/
theorem decodeTableByte_eq_decodeWire {b : Byte}
    (h : decodeWire b = .wireSeg b → (decode (b.setWidth 48)).isCommand = false) :
    decodeTableByte b = decodeWire b := by
  rw [decodeTableByte, if_neg]
  rintro ⟨hseg, hcommand⟩
  rw [h hseg] at hcommand
  cases hcommand

/-! ## The wire bytes decoded (R62 to R65) -/

theorem decodeWire_addrByte (a : Addr) : a ≤ 3#8 → decodeWire (addrByte a) = .wireAddr a := by
  revert a; decide

theorem decodeWire_dispctrlByte {l : Word} (h : l ≤ 7#32) : decodeWire (dispctrlByte l) = .wireDispctrl l := by
  have hrow : ∀ k : Fin 8, decodeWire (dispctrlByte (BitVec.ofNat 32 k)) = .wireDispctrl (BitVec.ofNat 32 k) := by
    decide
  have hlt : l.toNat < 8 := Nat.lt_succ_of_le (BitVec.le_def.1 h)
  simpa using hrow ⟨l.toNat, hlt⟩

/-- A segment byte, with the colon bit or without, is no MODE, ADDR or DISPCTRL byte (R100, R103). -/
theorem decodeWire_of_segmentPattern (b : Byte) :
    (Instr.wireSeg b).wellFormed = true → decodeWire b = .wireSeg b := by
  revert b; decide

/-- Nor is it the low byte of a command: its OP or its R makes the word reserved (R59). -/
theorem decode_of_segmentPattern_isCommand (b : Byte) :
    (Instr.wireSeg b).wellFormed = true → (decode (b.setWidth 48)).isCommand = false := by
  revert b; decide

/-! ## The decoder and the encoder are inverse to each other -/

/-- The word of a host row, RESERVED included, decodes to the row. -/
theorem decode_of_encode {i : Instr} {w : CmdWord} (hwf : i.wellFormed = true) (h : encode i = .cmd48 w) :
    decode w = i := by
  cases i with
  | showNum | set | bit | point | clear => exact (decode_eq_iff rfl).2 h
  | reserved => cases h; exact (decode_eq_reserved_iff w).2 hwf
  | wireMode | wireAddr | wireSeg | wireDispctrl => cases h

/-- The byte of a wire row decodes to the row. -/
theorem decodeWire_of_encode {i : Instr} {b : Byte} (hwf : i.wellFormed = true) (h : encode i = .wire8 b) :
    decodeWire b = i := by
  cases i with
  | showNum | set | bit | point | clear | reserved => cases h
  | wireMode => cases h; rfl
  | wireAddr a => cases h; exact decodeWire_addrByte a (of_decide_eq_true hwf)
  | wireSeg => cases h; exact decodeWire_of_segmentPattern b hwf
  | wireDispctrl l => cases h; exact decodeWire_dispctrlByte (of_decide_eq_true hwf)

/-- Settles O2: by format, a command word by its fields and a wire byte by its row, which the table's reading of a byte
agrees with. -/
theorem decodeOfEncodeIsTheInstruction : Obligations.DecodeOfEncodeIsTheInstruction := by
  intro i hwf
  cases henc : encode i with
  | cmd48 w =>
    have hdecode : decode w = i := decode_of_encode hwf henc
    exact ⟨hdecode, (decodeTableWord_cmd48 w).trans (congrArg some hdecode)⟩
  | wire8 b =>
    have hwire : decodeWire b = i := decodeWire_of_encode hwf henc
    have htable : decodeTableByte b = decodeWire b := decodeTableByte_eq_decodeWire fun hseg =>
      decode_of_segmentPattern_isCommand b (hseg ▸ hwire ▸ hwf)
    exact ⟨hwire, (decodeTableWord_wire8 b).trans (congrArg some (htable.trans hwire))⟩

/-- A command's operands fill their fields exactly (R58). -/
theorem wellFormed_of_isCommand {i : Instr} (hi : i.isCommand = true) : i.wellFormed = true := by
  cases i with
  | showNum | set | bit | point | clear => rfl
  | reserved | wireMode | wireAddr | wireSeg | wireDispctrl => cases hi

theorem decode_wellFormed (w : CmdWord) : (decode w).wellFormed = true := by
  cases hres : reservedWord w with
  | false => exact wellFormed_of_isCommand (decode_isCommand hres)
  | true => rw [(decode_eq_reserved_iff w).2 hres]; exact hres

/-- Settles O3: the decoder answers a command or RESERVED, and each encodes back. -/
theorem everyCommandWordEncodesBack : Obligations.EveryCommandWordEncodesBack :=
  fun w => ⟨encode_decode w, decode_wellFormed w, decode_isWire w⟩

/-- Settles O1, by evaluation of the decoder on each word. -/
theorem writtenOutWordsDecode : Obligations.WrittenOutWordsDecode := by
  unfold Obligations.WrittenOutWordsDecode
  decide

/-! ## What a receiver samples and gathers (R46, R66, R82, R90) -/

theorem samples_append (old : Pins) (ls ms : List Pins) :
    samples old (ls ++ ms) = samples old ls ++ samples (ls.getLastD old) ms := by
  induction ls generalizing old with
  | nil => rfl
  | cons new rest ih =>
    rw [List.cons_append, samples, samples, ih, List.getLastD_cons]
    split <;> rfl

/-- One trace after another. -/
theorem samples_levels_append (p : Pins) (t u : List PinEvent) :
    samples p (p.levels (t ++ u)) = samples p (p.levels t) ++ samples (p.writeAll t) ((p.writeAll t).levels u) := by
  rw [Pins.levels_append, samples_append, Pins.getLastD_levels]

/-- A bit slot has one rising edge, its last event, when DIO has the slot's bit. -/
theorem samples_bitSlot (p : Pins) (l : Bool) : samples p (p.levels (bitSlot l)) = [l] := by
  simp [bitSlot, samples]

/-- Settles O10: a sample for each of the nine bit slots. -/
theorem receiverSamplesTheByte : Obligations.ReceiverSamplesTheByte := by
  intro b p
  simp [writeByteTrace_eq, samples_levels_append, samples_bitSlot]

/-- Settles O12, by START, the bytes and STOP, as the receiver sees each. -/
theorem frameIsReceivedAsItsBytes : Obligations.FrameIsReceivedAsItsBytes :=
  fun bs p done => Receiver.watch_frameTrace done p bs

/-! ## A wire row placed for the next step (log entries 10 and 12) -/

/-- Every wire row has events: it opens with a START or, for SEG, with a WRITEBYTE. -/
theorem exists_wireTrace_eq_cons {i : Instr} (hi : i.isWire = true) : ∃ e rest, wireTrace i = e :: rest := by
  cases i with
  | showNum | set | bit | point | clear | reserved => cases hi
  | wireMode | wireAddr | wireSeg | wireDispctrl => exact ⟨_, _, rfl⟩

theorem State.withFetchWord_wire (s : State) {b : Byte} {i : Instr} (h : decodeTableWord 8 b.toNat = some i)
    (hi : i.isWire = true) : s.withFetchWord 8 b.toNat = s.loadWire i := by
  simp [State.withFetchWord, State.loadWord, h, hi]

/-- Settles O37: the row's events are pending in the placed state, whose first input is idle, so the step performs the
first and uses up that input. -/
theorem fetchedWireByteIsPerformed : Obligations.FetchedWireByteIsPerformed := by
  intro s b i hb hi
  refine ⟨fun u => exec_of_isWire u hi, ?_⟩
  obtain ⟨e, rest, htrace⟩ := exists_wireTrace_eq_cons hi
  refine ⟨e, rest, htrace, ?_⟩
  rw [s.withFetchWord_wire hb hi, step_of_busy (s := s.loadWire i) htrace rfl]
  rfl

/-! ## The invariant at reset (R36, R161, R162) -/

/-- Settles O41: the state after reset is what the reset sequence makes of itself, and the reset sequence establishes
the invariant whatever the pins' levels. -/
theorem resetMeetsTheInvariant : Obligations.ResetMeetsTheInvariant := by
  have hinv : (resetSequence State.reset).Inv := resetSequence_inv Memory.wf_nil (by decide)
  rwa [resetSequence_eq_reset Memory.wf_nil] at hinv

end Sys2Proof.Machine
